-- ==== Sys2Proof/Word.lean ====
section
/-! DEFINITION. Bits, words and the nodes of the circuit graph (spec/10_state.md section 5 and rule R32). -/

namespace Sys2Proof

/-- A Bit is tagged by its realization (R28): a true/false value, or a reference to a node of the circuit graph.
A node is referred to by its place in the graph, counted from the first node made. -/
inductive Bit where
  | concrete (v : Bool)
  | symbolic (node : Nat)
deriving DecidableEq, Repr

/-- A Word is an ordered sequence of bits, index 0 the least significant (R10, R27).
That it has exactly `W` bits is checked where a word enters an evaluation, and is an invariant of every word made in one. -/
abbrev Word := List Bit

/-- The name of an INPUT node (R81). The spec lets the caller choose any name; here a name is a label and a bit index,
so that the spec's `"a0"` is a label standing for `a` with bit index 0. -/
structure InputName where
  label : Nat
  bit   : Nat
deriving DecidableEq, Repr

/-- The output ports of one instance (R23). -/
inductive OutPort where
  | r | cout | lt | eq | gt | ill
deriving DecidableEq, Repr

/-- The name of an OUTPUT node (R32): a label the environment gives, the port and the bit of the port. -/
structure OutputName where
  label : Nat
  port  : OutPort
  bit   : Nat
deriving DecidableEq, Repr

/-- A node of the circuit graph, with the five kinds rule R32 lists. Operands are references to other nodes. -/
inductive Node where
  | input (name : InputName)
  | constant (v : Bool)
  | and (lhs rhs : Nat)
  | xor (lhs rhs : Nat)
  | output (name : OutputName) (operand : Nat)
deriving DecidableEq, Repr

/-- The nodes a node reads. -/
def Node.operands : Node → List Nat
  | .input _ => []
  | .constant _ => []
  | .and l r => [l, r]
  | .xor l r => [l, r]
  | .output _ x => [x]

end Sys2Proof
end

