-- ==== Sys2Proof/Config.lean ====
section
/-! DEFINITION. The parameters of one instance (spec/00_scope.md R7 to R9), the values the model gives them in the reset
state, and the free values: what the spec leaves open and no proof can see. -/

namespace Sys2Proof

/-- `REALIZATION`, fixed for the lifetime of an instance (R8). -/
inductive Realization where
  | concrete
  | circuit
deriving DecidableEq, Repr

namespace Config

/-- How many AND calls an evaluation with a symbolic `op` makes: R69 leaves the arrangement and number of the MUX cells
open and spec/93 gives the counts of that netlist the treatment "any value" (log entry 6). Applied to State.freeIndex. -/
opaque freeAndCount : Nat → Nat

/-- The same for the XOR calls of an evaluation with a symbolic `op` (log entry 6). -/
opaque freeXorCount : Nat → Nat

/-- The width of the instance in State.reset. DESIGN CHOICE (log entry 1): `W` is OPEN (R7, D1) and a field of State;
8 is the width the spec's test vectors use unless they say otherwise. -/
def resetWidth : Nat := 8

/-- The realization of the instance in State.reset. DESIGN CHOICE (log entry 1): R8 leaves it to the instance. -/
def resetRealization : Realization := .concrete

/-- Whether the instance in State.reset gives back an existing node. DESIGN CHOICE (log entry 7): R32 allows both. -/
def resetReuseNodes : Bool := false

end Config
end Sys2Proof
end

