-- ==== Sys2Proof/Syntax.lean ====
section
/-! DEFINITION. The instructions: one constructor for each row of spec/opcode_table.json. -/

namespace Sys2Proof

/-- The operations selected by the 16 assigned codes of `op` (spec/30_encoding.md R62 to R64).
The control word is the whole 5-bit field: it has no register field, no immediate field and no mode bit (R60),
so a constructor carries no operand. The operands arrive on the ports `a`, `b`, `ctrl` and `cin`, which are in State. -/
inductive Instr where
  | add | sub | cmp | sel
  | shl | shr | sar | rol | ror | rcl | rcr
  | bshl | bshr | bsar | brol | bror
deriving DecidableEq, Repr

end Sys2Proof
end

