-- ==== Sys2Proof/Machine/Assembly.lean ====
section
/-! DEFINITION. The assembler lines and pseudo-instructions of spec/30_encoding.md R72 and R73, in which the harness of
spec/95_test_vectors.md writes programs. The harness is not part of the block (R72). -/

namespace Sys2Proof.Machine

/-- A word source of a line: a harness register `T<i>`, `#k` meaning `W'k`, or `#-k` meaning `word(-k)` (R72). -/
inductive WordSrc where
  | reg (i : Nat)
  | const (k : Nat)
  | negConst (k : Nat)
deriving DecidableEq, Repr

/-- A bit source of a line: `0`, `1`, or one of the harness bits (R72). -/
inductive BitSrc where
  | zero | one | c | lt | eq | gt
deriving DecidableEq, Repr

/-- One line: a mnemonic, the destination `d` where one is given, the sources `x` and `y`, and the bit source `c` (R72). -/
structure Line where
  instr : Instr
  dest  : Option Nat
  x     : WordSrc
  y     : Option WordSrc
  c     : Option BitSrc
deriving DecidableEq, Repr

/-- The pseudo-instructions of R73. -/
inductive Pseudo where
  | mov (d : Nat) (x : WordSrc)
  | clr (d : Nat)
  | neg (d : Nat) (x : WordSrc)
  | inc (d : Nat) (x : WordSrc)
  | dec (d : Nat) (x : WordSrc)
  | notw (d : Nat) (x : WordSrc)
  | tst (x : WordSrc)
deriving DecidableEq, Repr

/-- The one line a pseudo-instruction expands to, on a harness of `W`-bit words (R73). -/
def Pseudo.expand (W : Nat) : Pseudo → Line
  | .mov d x  => { instr := .sel, dest := some d, x := x, y := some x, c := some .one }
  | .clr d    => { instr := .shl, dest := some d, x := .const 0, y := none, c := none }
  | .neg d x  => { instr := .sub, dest := some d, x := .const 0, y := some x, c := none }
  | .inc d x  => { instr := .add, dest := some d, x := x, y := some (.const 1), c := none }
  | .dec d x  => { instr := .sub, dest := some d, x := x, y := some (.const 1), c := none }
  | .notw d x => { instr := .sub, dest := some d, x := .const (2 ^ W - 1), y := some x, c := none }
  | .tst x    => { instr := .cmp, dest := none, x := x, y := some (.const 0), c := none }

end Sys2Proof.Machine
end

