-- ==== Sys2Proof/WellFormed.lean ====
section
/-! DEFINITION. What a well-formed term is: an instruction, a control word, an assembler line. -/

namespace Sys2Proof

/-- Every instruction term is well formed: the control word has no operand field (spec/30_encoding.md R60),
so there is nothing in a term that could be out of range. -/
def Instr.wf : Instr → Bool
  | .add | .sub | .cmp | .sel => true
  | .shl | .shr | .sar | .rol | .ror | .rcl | .rcr => true
  | .bshl | .bshr | .bsar | .brol | .bror => true

/-- A control word has exactly five bits (R60, R68). -/
def controlWordWf (bits : List Bool) : Bool := bits.length == 5

namespace Machine

/-- The second word source stands in the lines of the two-word operations only (R72). -/
def lineTakesY : Instr → Bool
  | .add | .sub | .cmp | .sel | .bshl | .bshr | .bsar | .brol | .bror => true
  | .shl | .shr | .sar | .rol | .ror | .rcl | .rcr => false

/-- The bit source stands in the lines of SEL, RCL and RCR only (R72). -/
def lineTakesC : Instr → Bool
  | .sel | .rcl | .rcr => true
  | .add | .sub | .cmp | .shl | .shr | .sar | .rol | .ror | .bshl | .bshr | .bsar | .brol | .bror => false

/-- A constant `#k` has `0 <= k < 2^W` (R72, R70); `#-k` is `word(-k)` for every `k`. -/
def WordSrc.wf (W : Nat) : WordSrc → Bool
  | .reg _ => true
  | .const k => decide (k < 2 ^ W)
  | .negConst _ => true

/-- The operand form of a line is the one R72 gives its mnemonic: a destination for every mnemonic but CMP, which may
go without; `y` and `c` exactly where the mnemonic takes them; constants in range. -/
def Line.wf (W : Nat) (l : Line) : Bool :=
  (l.dest.isSome || l.instr == .cmp) &&
  (l.y.isSome == lineTakesY l.instr) &&
  (l.c.isSome == lineTakesC l.instr) &&
  l.x.wf W &&
  (match l.y with
   | some y => y.wf W
   | none => true)

end Machine
end Sys2Proof
end

