-- ==== Sys2Proof/Decode.lean ====
section
/-! DEFINITION. The decoder of the control word, total on every bit sequence, and the encoder
(spec/30_encoding.md R60 to R68). -/

namespace Sys2Proof

/-- Why a bit sequence is no assigned control word. -/
inductive DecodeError where
  /-- Not five bits (R60, R68). -/
  | badLength (n : Nat)
  /-- One of the 16 reserved codes (R66). -/
  | reserved (code : BitVec 5)
deriving DecidableEq, Repr

/-- `op[4:3]` (R61). -/
def familyField (code : BitVec 5) : BitVec 2 := code.extractLsb' 3 2

/-- `op[2:0]` (R61). -/
def fnField (code : BitVec 5) : BitVec 3 := code.extractLsb' 0 3

/-- `op[2:1]`, read in families 01 and 10 only (R61). -/
def kindField (code : BitVec 5) : BitVec 2 := code.extractLsb' 1 2

/-- `op[0]`, read in families 01 and 10 only (R61). -/
def dirField (code : BitVec 5) : BitVec 1 := code.extractLsb' 0 1

/-- The decoder, by family and function field (R62 to R66). -/
def decode (code : BitVec 5) : Except DecodeError Instr :=
  match (familyField code).toNat, (fnField code).toNat with
  | 0, 0 => .ok .add
  | 0, 1 => .ok .sub
  | 0, 2 => .ok .cmp
  | 0, 3 => .ok .sel
  | 1, 0 => .ok .shl
  | 1, 1 => .ok .shr
  | 1, 3 => .ok .sar
  | 1, 4 => .ok .rol
  | 1, 5 => .ok .ror
  | 1, 6 => .ok .rcl
  | 1, 7 => .ok .rcr
  | 2, 0 => .ok .bshl
  | 2, 1 => .ok .bshr
  | 2, 3 => .ok .bsar
  | 2, 4 => .ok .brol
  | 2, 5 => .ok .bror
  | _, _ => .error (.reserved code)

/-- The code whose bits are given, least significant first. -/
def codeOfBits : List Bool → Nat
  | [] => 0
  | b :: bs => b.toNat + 2 * codeOfBits bs

/-- The decoder on any bit sequence, least significant bit first. -/
def decodeBits (bits : List Bool) : Except DecodeError Instr :=
  if controlWordWf bits then decode (BitVec.ofNat 5 (codeOfBits bits)) else .error (.badLength bits.length)

/-- The code of an operation, as the opcode map writes it (R62 to R64). -/
def encode : Instr → BitVec 5
  | .add  => 0b00000#5
  | .sub  => 0b00001#5
  | .cmp  => 0b00010#5
  | .sel  => 0b00011#5
  | .shl  => 0b01000#5
  | .shr  => 0b01001#5
  | .sar  => 0b01011#5
  | .rol  => 0b01100#5
  | .ror  => 0b01101#5
  | .rcl  => 0b01110#5
  | .rcr  => 0b01111#5
  | .bshl => 0b10000#5
  | .bshr => 0b10001#5
  | .bsar => 0b10011#5
  | .brol => 0b10100#5
  | .bror => 0b10101#5

/-- The reserved codes, as R66 lists them. -/
def reservedCodes : List (BitVec 5) :=
  [0b00100#5, 0b00101#5, 0b00110#5, 0b00111#5, 0b01010#5, 0b10010#5, 0b10110#5, 0b10111#5] ++
  [0b11000#5, 0b11001#5, 0b11010#5, 0b11011#5, 0b11100#5, 0b11101#5, 0b11110#5, 0b11111#5]

/-- The instruction the decoder reads from a table word. The control word is the five low bits (R60); a word with a bit
above them is no control word. -/
def decodeTableWord (_nbits w : Nat) : Option Instr :=
  if w < 32 then (decode (BitVec.ofNat 5 w)).toOption else none

end Sys2Proof
end

