-- ==== Sys2Proof/Machine/State.lean ====
section
/-! DEFINITION. The state of one instance of the block, as plain data (spec/10_state.md), and the state after its
creation (spec/70_reset_and_hazards.md R201). -/

namespace Sys2Proof.Machine

/-- The BitFactory of the instance (R29 to R32): its realization, the two gate counters, and the circuit graph, the
nodes in the order in which they were made. `reuseNodes` says whether a cell call may give back an existing node, which R32
allows and does not require (log entry 7). -/
structure Factory where
  realization : Realization
  reuseNodes  : Bool
  andCount    : Nat
  xorCount    : Nat
  graph       : List Node
deriving DecidableEq, Repr

/-- What the environment drives on one input port (R22, R203): nothing; a literal, made a constant word by
`fromConstant` (R70); INPUT cells, bit `i` named by the label and `i` (R81); a word held outside the block; or, which R205
forbids, one of the block's own outputs of the same evaluation, directly or through other logic without storage: a word of
`width` bits that logic outside the block computes from `p` and whatever else. Which logic is not said, since every such
wiring is refused before any of it is built (log entry 17). -/
inductive Drive where
  | undriven
  | literal (k : Int)
  | inputs (label : Nat)
  | word (w : Word)
  | output (p : OutPort)
  | throughLogic (width : Nat) (p : OutPort)
deriving DecidableEq, Repr

/-- The input ports (R22), and what the environment asks of the evaluation: the concrete read-out of an output port (R15,
R183), and the naming of the output bits by OUTPUT nodes under a label (R32). -/
structure Inputs where
  op          : Drive
  a           : Drive
  b           : Drive
  ctrl        : Drive
  cin         : Drive
  readOut     : Option OutPort
  outputLabel : Option Nat
deriving DecidableEq, Repr

/-- The output ports of one evaluation (R23), and the natural number read out of one of them if the environment asked
for it (R15). -/
structure Outputs where
  r       : Word
  cout    : Bit
  lt      : Bit
  eq      : Bit
  gt      : Bit
  ill     : Bit
  reading : Option Nat
deriving DecidableEq, Repr

/-- What is kept of an evaluation with a symbolic `op`, so that its IllegalOp is not lost (R69, R181): what stood on `op`
and the bit on `ill`. Under an assignment of the INPUT nodes the evaluation was illegal exactly where that bit is 1, and the
offending code is the value of `op` there (log entry 3). -/
structure IllegalRecord where
  op  : Drive
  ill : Bit
deriving DecidableEq, Repr

/-- Why the machine stops with a fault. -/
inductive Fault where
  /-- An earlier evaluation had the reserved code `code` on `op`. Raised by `step` in every state in which that fault is
  recorded for every assignment, and by `stepUnder` in every state in which it is recorded for the one assignment: R181 makes
  it final for the run. Safe: the block goes on and the model does not. -/
  | illegalOp (code : BitVec 5)
deriving DecidableEq, Repr

/-- Why a term is no evaluation of the block (R182 to R185). Every refusal but the first is raised by the check of the
inputs before an evaluation, in the order in which they stand here, and by the cell or word operation whose precondition it is.
All are safe: where one is raised the spec says there is no evaluation. -/
inductive Refusal where
  /-- Raised by an arm of `exec` whose instruction has no meaning yet; no arm is one. Safe. -/
  | notModelled (mnemonic : String)
  /-- A constant outside `[0, 2^W)`, or outside the range of a narrower port (R70, R182). Safe. -/
  | literalOutOfRange
  /-- A word of another width than its port's (R27, R182). Safe. -/
  | widthMismatch
  /-- A bit of one realization given to a factory of the other (R182). Safe. -/
  | realizationMismatch
  /-- A concrete read-out of a symbolic bit (R182, R183). Safe. -/
  | symbolicExtract
  /-- An output fed back to an input of the same evaluation, directly, through other logic, or as a node not made before
  the evaluation (R182, R205, log entry 5). Safe. -/
  | combinationalCycle
  /-- INPUT called on the Concrete realization (R81, D23). Safe. -/
  | inputOnConcrete
  /-- A gate cell given a symbolic bit that refers to no node of the factory's graph, so is no Bit of it (R28, log entry 5).
  Raised by a cell called by itself; on a port such a bit is `combinationalCycle`. Safe. -/
  | danglingNode
  /-- An input port the environment leaves undriven (R203, D21). Safe. -/
  | undrivenPort
deriving DecidableEq, Repr

/-- One instance of the block.
`width` is `W` (R7) with `W >= 1`, fixed for the instance, as the factory's realization is (R8).
`inputs` is what the environment drives.
`outputs` is what the last evaluation drove, `none` before the first: the block stores no output (R24, R33), and no
evaluation reads this field.
`illegal` is the record a model keeps of IllegalOp, with the offending code (R181).
`illegalIf` is that record for the evaluations with a symbolic `op`, oldest first: each holds under the assignments that
give its `ill` bit the value 1 (R69, R181, log entry 3).
`freeIndex` is the model's own: it counts the free values taken (log entry 6). -/
structure State where
  width     : Nat
  width_pos : 1 ≤ width
  factory   : Factory
  inputs    : Inputs
  outputs   : Option Outputs
  illegal   : Option (BitVec 5)
  illegalIf : List IllegalRecord
  freeIndex : Nat
deriving DecidableEq, Repr

/-- A factory at creation: both counters 0, the graph empty (R30, R33, R201). -/
def Factory.create (realization : Realization) (reuseNodes : Bool) : Factory :=
  { realization := realization, reuseNodes := reuseNodes, andCount := 0, xorCount := 0, graph := [] }

/-- No input port driven and nothing asked. -/
def Inputs.none : Inputs :=
  { op := .undriven, a := .undriven, b := .undriven, ctrl := .undriven, cin := .undriven,
    readOut := Option.none, outputLabel := Option.none }

/-- Creation of an instance, the only initialisation event (R201, R203). -/
def State.create (width : Nat) (width_pos : 1 ≤ width) (realization : Realization) (reuseNodes : Bool) : State :=
  { width := width, width_pos := width_pos, factory := Factory.create realization reuseNodes,
    inputs := Inputs.none, outputs := Option.none, illegal := Option.none, illegalIf := [],
    freeIndex := 0 }

/-- The machine right after creation: nothing driven, no evaluation made, counters 0, graph empty (R33, R201). The block
has no reset (R200). The width and realization are those of log entry 1. -/
def State.reset : State :=
  State.create Config.resetWidth (by decide) Config.resetRealization Config.resetReuseNodes

end Sys2Proof.Machine
end

