-- ==== Sys2Proof/Machine/Gates.lean ====
section
/-! DEFINITION. The gate cells (spec/40_gate_cells.md): the factory's contract, once for both realizations (R4). -/

namespace Sys2Proof.Machine

/-- A computation that calls cells of one factory: it goes on with the factory's new state, or is refused. -/
abbrev Build (α : Type) := StateT Factory (Except Refusal) α

/-- A refusal inside a construction. -/
def Build.refuse {α : Type} (r : Refusal) : Build α := fun _ => .error r

/-- A node for a cell call of the Circuit realization: a new node, or, where the instance reuses nodes and one with the
same content stands in the graph, that one (R28, R32). -/
def Factory.emit (f : Factory) (n : Node) : Nat × Factory :=
  if f.reuseNodes && f.graph.contains n then (f.graph.idxOf n, f)
  else (f.graph.length, { f with graph := f.graph ++ [n] })

/-- CONST (R80): no counter changes. -/
def constCell (v : Bool) : Build Bit := fun f =>
  match f.realization with
  | .concrete => .ok (.concrete v, f)
  | .circuit => .ok (.symbolic (f.emit (.constant v)).1, (f.emit (.constant v)).2)

/-- INPUT (R81): a fresh INPUT node, refused on the Concrete realization; no counter changes. -/
def inputCell (name : InputName) : Build Bit := fun f =>
  match f.realization with
  | .concrete => .error .inputOnConcrete
  | .circuit => .ok (.symbolic f.graph.length, { f with graph := f.graph ++ [.input name] })

/-- AND (R82): one more on `andCount`, whatever the operands and whether or not the node is a new one (R29). -/
def andCell (x y : Bit) : Build Bit := fun f =>
  match f.realization, x, y with
  | .concrete, .concrete u, .concrete v => .ok (.concrete (u && v), { f with andCount := f.andCount + 1 })
  | .circuit, .symbolic m, .symbolic n =>
    if m < f.graph.length && n < f.graph.length then
      .ok (.symbolic (f.emit (.and m n)).1, { (f.emit (.and m n)).2 with andCount := f.andCount + 1 })
    else .error .danglingNode
  | _, _, _ => .error .realizationMismatch

/-- XOR (R83): one more on `xorCount`, as AND on its own counter. -/
def xorCell (x y : Bit) : Build Bit := fun f =>
  match f.realization, x, y with
  | .concrete, .concrete u, .concrete v => .ok (.concrete (u ^^ v), { f with xorCount := f.xorCount + 1 })
  | .circuit, .symbolic m, .symbolic n =>
    if m < f.graph.length && n < f.graph.length then
      .ok (.symbolic (f.emit (.xor m n)).1, { (f.emit (.xor m n)).2 with xorCount := f.xorCount + 1 })
    else .error .danglingNode
  | _, _, _ => .error .realizationMismatch

/-- An OUTPUT node for a bit of an output port (R32): no cell of R80 to R91, so no counter changes. The Concrete
realization has no graph and nothing to name (log entry 8). -/
def outputNode (name : OutputName) (x : Bit) : Build Unit := fun f =>
  match f.realization, x with
  | .concrete, .concrete _ => .ok ((), f)
  | .circuit, .symbolic n =>
    if n < f.graph.length then .ok ((), { f with graph := f.graph ++ [.output name n] })
    else .error .danglingNode
  | _, _ => .error .realizationMismatch

/-- NOT (R84). -/
def notCell (x : Bit) : Build Bit := do
  let one ← constCell true
  xorCell x one

/-- MUX (R85): `x` when `c` is true, else `y`. -/
def muxCell (c x y : Bit) : Build Bit := do
  let t ← xorCell x y
  let u ← andCell c t
  xorCell y u

/-- OR (R86): used by no operation of the block. DESIGN CHOICE: R86 gives a nested formula with no call order; here the inner
`XOR(x, y)` is called before `AND(x, y)` (log entry 12). -/
def orCell (x y : Bit) : Build Bit := do
  let s ← xorCell x y
  let p ← andCell x y
  xorCell s p

/-- HA, the half adder (R87): sum and carry. -/
def halfAdder (x y : Bit) : Build (Bit × Bit) := do
  let s ← xorCell x y
  let c ← andCell x y
  pure (s, c)

/-- FA, the full adder (R88): sum and carry. -/
def fullAdder (x y ci : Bit) : Build (Bit × Bit) := do
  let t ← xorCell x y
  let s ← xorCell t ci
  let g ← andCell x y
  let p ← andCell t ci
  let co ← xorCell g p
  pure (s, co)

/-- NOTW (R90). -/
def notWord : Word → Build Word
  | [] => pure []
  | x :: xs => do
    let y ← notCell x
    let ys ← notWord xs
    pure (y :: ys)

/-- MUXW (R91): one control bit, bit order from 0 up. Words of different widths are refused (R182). -/
def muxWord (c : Bit) : Word → Word → Build Word
  | [], [] => pure []
  | x :: xs, y :: ys => do
    let z ← muxCell c x y
    let zs ← muxWord c xs ys
    pure (z :: zs)
  | [], _ :: _ => Build.refuse .widthMismatch
  | _ :: _, [] => Build.refuse .widthMismatch

/-- The constant bits of `k`, `n` of them, least significant first (R70). -/
def constBits : Nat → Nat → Build Word
  | 0, _ => pure []
  | n + 1, k => do
    let x ← constCell (k % 2 == 1)
    let xs ← constBits n (k / 2)
    pure (x :: xs)

/-- `fromConstant(W, k)` (R70): defined for `0 <= k < 2^W`, refused otherwise. -/
def fromConstant (W : Nat) (k : Int) : Build Word :=
  if 0 ≤ k ∧ k < 2 ^ W then constBits W k.toNat else Build.refuse .literalOutOfRange

/-- `fromBits(bits)` (R27): a word of exactly `W` bits, element `i` its bit `i`. -/
def fromBits (W : Nat) (bits : List Bit) : Build Word :=
  if bits.length = W then pure bits else Build.refuse .widthMismatch

/-- `n` INPUT cells under one label, for bits `i` and up of a port (R22, R81). -/
def inputWord (label : Nat) : Nat → Nat → Build Word
  | 0, _ => pure []
  | n + 1, i => do
    let x ← inputCell { label := label, bit := i }
    let xs ← inputWord label n (i + 1)
    pure (x :: xs)

/-- `extract(Bit) -> integer` (R15, R183): defined for a concrete bit only. -/
def extractBit : Bit → Except Refusal Nat
  | .concrete v => .ok v.toNat
  | .symbolic _ => .error .symbolicExtract

/-- The concrete read-out of a word: `uval` of it (R15). -/
def extractWord : Word → Except Refusal Nat
  | [] => .ok 0
  | x :: xs => do
    let b ← extractBit x
    let rest ← extractWord xs
    pure (b + 2 * rest)

end Sys2Proof.Machine
end

