-- ==== Sys2Proof/Machine/Flags.lean ====
section
/-! DEFINITION. The subtractor (spec/41_add_sub.md R105) and the comparator's flags on its difference
(spec/42_compare.md R125), which every evaluation drives (spec/10_state.md R24). -/

namespace Sys2Proof.Machine

/-- The carry chain of full adders (R101, R105): sum word and carry out, from a carry in. -/
def rippleChain : Word → Word → Bit → Build (Word × Bit)
  | [], [], c => pure ([], c)
  | x :: xs, y :: ys, c => do
    let (s, co) ← fullAdder x y c
    let (ss, last) ← rippleChain xs ys co
    pure (s :: ss, last)
  | [], _ :: _, _ => Build.refuse .widthMismatch
  | _ :: _, [], _ => Build.refuse .widthMismatch

/-- SUB construction (R105): `b` inverted, carry in true, a full adder at every bit. -/
def subNet (a b : Word) : Build (Word × Bit) := do
  let nb ← notWord b
  let c0 ← constCell true
  rippleChain a nb c0

/-- The linear chain of ANDs of the zero-detector, from the bit given (R125). -/
def andChain (e : Bit) : Word → Build Bit
  | [] => pure e
  | z :: zs => do
    let e' ← andCell e z
    andChain e' zs

/-- The three flags. -/
structure Flags where
  lt : Bit
  eq : Bit
  gt : Bit
deriving DecidableEq, Repr

/-- The flags of a difference `d` (R125): `lt` is the wire `d[W-1]`, `eq` the zero-detector, `gt` neither.
DESIGN CHOICE: R125 nests the two NOT calls of `gt` without an order; here `NOT(lt)` is called before `NOT(eq)` (log entry 12).
A word has at least one bit (R7); the empty one is refused. -/
def compareFlags (d : Word) : Build Flags := do
  let z ← notWord d
  match z, d.getLast? with
  | z0 :: zs, some lt => do
    let eq ← andChain z0 zs
    let nlt ← notCell lt
    let neq ← notCell eq
    let gt ← andCell nlt neq
    pure { lt := lt, eq := eq, gt := gt }
  | _, _ => Build.refuse .widthMismatch

end Sys2Proof.Machine
end

