-- ==== Sys2Proof/Machine/Operands.lean ====
section
/-! DEFINITION. The input ports: the check of an evaluation's inputs, with every refusal in its order
(spec/60_exceptions.md R182 to R185), and the reading of each port's word from what the environment drives. -/

namespace Sys2Proof.Machine

/-- A literal is in the range of a port of width `W` (R70). -/
def Drive.literalOk (W : Nat) : Drive → Bool
  | .literal k => decide (0 ≤ k ∧ k < 2 ^ W)
  | .undriven | .inputs _ | .word _ | .output _ | .throughLogic _ _ => true

/-- The width of an output port of an instance of width `W` (R23). -/
def OutPort.width (W : Nat) : OutPort → Nat
  | .r => W
  | .cout | .lt | .eq | .gt | .ill => 1

/-- The width of what is driven, on an instance of width `W`, where it has a width of its own. -/
def Drive.width (W : Nat) : Drive → Option Nat
  | .word w => some w.length
  | .output p => some (OutPort.width W p)
  | .throughLogic n _ => some n
  | .undriven | .literal _ | .inputs _ => none

/-- What is driven on a port of width `n` of an instance of width `W` has the width of the port (R27, R203). -/
def Drive.widthOk (W n : Nat) (d : Drive) : Bool :=
  match d.width W with
  | some m => m == n
  | none => true

/-- A bit has the realization of the factory (R28, R182). -/
def Factory.matchesBit (f : Factory) (x : Bit) : Bool :=
  match f.realization, x with
  | .concrete, .concrete _ => true
  | .circuit, .symbolic _ => true
  | .concrete, .symbolic _ => false
  | .circuit, .concrete _ => false

/-- A word's bits have the realization of the factory. -/
def Drive.realizationOk (f : Factory) : Drive → Bool
  | .word w => w.all f.matchesBit
  | .undriven | .literal _ | .inputs _ | .output _ | .throughLogic _ _ => true

/-- INPUT cells stand on a port of the Circuit realization only (R81). -/
def Drive.inputOk (f : Factory) : Drive → Bool
  | .inputs _ => f.realization == .circuit
  | .undriven | .literal _ | .word _ | .output _ | .throughLogic _ _ => true

/-- A symbolic bit refers to a node of the factory's graph (R28). -/
def Factory.hasNode (f : Factory) : Bit → Bool
  | .concrete _ => true
  | .symbolic n => decide (n < f.graph.length)

/-- The port is not wired to the same evaluation (R205): to an output, to logic that reads one, or to a node not made
before the evaluation, which this evaluation makes or none does (log entry 5). -/
def Drive.acyclic (f : Factory) : Drive → Bool
  | .output _ => false
  | .throughLogic _ _ => false
  | .word w => w.all f.hasNode
  | .undriven | .literal _ | .inputs _ => true

/-- The port is driven (R203). -/
def Drive.driven : Drive → Bool
  | .undriven => false
  | .literal _ | .inputs _ | .word _ | .output _ | .throughLogic _ _ => true

/-- The five input ports with their widths (R22). -/
def State.drives (s : State) : List (Nat × Drive) :=
  [(5, s.inputs.op), (s.width, s.inputs.a), (s.width, s.inputs.b), (1, s.inputs.ctrl), (1, s.inputs.cin)]

/-- The refusal of the evaluation the environment asks for, if there is one: the errors of use in the order of R182's
list (R185), then those the spec refuses outside that list (R81, R203; their order is log entry 4). -/
def State.inputError (s : State) : Option Refusal :=
  if !(s.drives.all fun d => d.2.literalOk d.1) then some .literalOutOfRange
  else if !(s.drives.all fun d => d.2.widthOk s.width d.1) then some .widthMismatch
  else if !(s.drives.all fun d => d.2.realizationOk s.factory) then some .realizationMismatch
  else if s.inputs.readOut.isSome && s.factory.realization == .circuit then some .symbolicExtract
  else if !(s.drives.all fun d => d.2.acyclic s.factory) then some .combinationalCycle
  else if !(s.drives.all fun d => d.2.inputOk s.factory) then some .inputOnConcrete
  else if !(s.drives.all fun d => d.2.driven) then some .undrivenPort
  else none

/-- The word on a port of width `W`: each literal by `fromConstant`, each INPUT bit by its cell (R203). -/
def Drive.read (W : Nat) : Drive → Build Word
  | .undriven => Build.refuse .undrivenPort
  | .literal k => fromConstant W k
  | .inputs label => inputWord label W 0
  | .word w => fromBits W w
  | .output _ => Build.refuse .combinationalCycle
  | .throughLogic _ _ => Build.refuse .combinationalCycle

/-- The bit on a port of width 1. -/
def Drive.readBit (d : Drive) : Build Bit := do
  let w ← d.read 1
  match w with
  | [x] => pure x
  | _ => Build.refuse .widthMismatch

/-- The value of a constant bit: a concrete bit, or a symbolic bit whose node is a CONST cell (R22, R69). -/
def Factory.constValue (f : Factory) : Bit → Option Bool
  | .concrete v => some v
  | .symbolic n =>
    match f.graph[n]? with
    | some (.constant v) => some v
    | _ => none

/-- The values of a word whose bits are all constant. -/
def Factory.constValues (f : Factory) : Word → Option (List Bool)
  | [] => some []
  | x :: xs =>
    match f.constValue x, f.constValues xs with
    | some v, some vs => some (v :: vs)
    | _, _ => none

/-- The code on `op` where it is constant: an in-range literal, or a five-bit word of constant bits (R66, R69). -/
def State.opCode (s : State) : Option (BitVec 5) :=
  match s.inputs.op with
  | .literal k => if 0 ≤ k ∧ k < 32 then some (BitVec.ofNat 5 k.toNat) else none
  | .word w =>
    match s.factory.constValues w with
    | some vs => if controlWordWf vs then some (BitVec.ofNat 5 (codeOfBits vs)) else none
    | none => none
  | .undriven => none
  | .inputs _ => none
  | .output _ => none
  | .throughLogic _ _ => none

end Sys2Proof.Machine
end

