-- ==== Sys2Proof/Machine/Ops.lean ====
section
/-! DEFINITION. One evaluation of the block, which every operation's meaning shares: reading the ports, the one subtractor
with the flags, the selected operation, driving the outputs; and the IllegalOp evaluation of a reserved code. -/

namespace Sys2Proof.Machine

/-- The wires an operation's netlist starts from: the operand ports (R22), and the difference and carry of the one
subtractor that serves the flags, SUB and CMP (R125). -/
structure Wires where
  a          : Word
  b          : Word
  ctrl       : Bit
  cin        : Bit
  difference : Word
  notBorrow  : Bit
deriving DecidableEq, Repr

/-- What an operation drives: `r`, `cout`, `ill` (R23). -/
structure Driven where
  r    : Word
  cout : Bit
  ill  : Bit
deriving DecidableEq, Repr

/-- OUTPUT nodes for the bits of one port, from bit `i` up (R32). -/
def nameBits (label : Nat) (port : OutPort) : Nat → Word → Build Unit
  | _, [] => pure ()
  | i, x :: xs => do
    outputNode { label := label, port := port, bit := i } x
    nameBits label port (i + 1) xs

/-- The word on an output port. -/
def Outputs.port (o : Outputs) : OutPort → Word
  | .r => o.r
  | .cout => [o.cout]
  | .lt => [o.lt]
  | .eq => [o.eq]
  | .gt => [o.gt]
  | .ill => [o.ill]

/-- OUTPUT nodes for all output ports, where the environment gave a label. -/
def nameOutputs (label : Option Nat) (o : Outputs) : Build Unit :=
  match label with
  | none => pure ()
  | some l => do
    nameBits l .r 0 o.r
    nameBits l .cout 0 [o.cout]
    nameBits l .lt 0 [o.lt]
    nameBits l .eq 0 [o.eq]
    nameBits l .gt 0 [o.gt]
    nameBits l .ill 0 [o.ill]

/-- The read-out the environment asked for (R15). -/
def Outputs.readOut (o : Outputs) (port : Option OutPort) : Except Refusal (Option Nat) :=
  match port with
  | none => .ok none
  | some p => do
    let n ← extractWord (o.port p)
    pure (some n)

/-- The part of an evaluation that no operation changes: every port is read, and the flags come from `compare(a, b)`
(R24, R43). -/
def prepare (i : Inputs) (W : Nat) : Build (Wires × Flags) := do
  let a ← i.a.read W
  let b ← i.b.read W
  let ctrl ← i.ctrl.readBit
  let cin ← i.cin.readBit
  let (d, nb) ← subNet a b
  let flags ← compareFlags d
  pure ({ a := a, b := b, ctrl := ctrl, cin := cin, difference := d, notBorrow := nb }, flags)

/-- The operation drives `r`, `cout` and `ill`, and the flags the rest (R67). -/
def finish (label : Option Nat) (operation : Wires → Build Driven) (x : Wires × Flags) : Build Outputs := do
  let d ← operation x.1
  let o : Outputs :=
    { r := d.r, cout := d.cout, lt := x.2.lt, eq := x.2.eq, gt := x.2.gt, ill := d.ill, reading := none }
  nameOutputs label o
  pure o

/-- One evaluation's netlist (R24, R43, R67). -/
def evaluation (i : Inputs) (W : Nat) (operation : Wires → Build Driven) : Build Outputs := do
  let x ← prepare i W
  finish i.outputLabel operation x

/-- The evaluation's outputs and the factory after it, or the refusal of R184: first the check of the inputs in its
order, then the netlist. -/
def State.runNetlist (s : State) (operation : Wires → Build Driven) : Except Refusal (Outputs × Factory) :=
  match s.inputError with
  | some r => .error r
  | none => evaluation s.inputs s.width operation s.factory

/-- An evaluation as a step: it drives the outputs, with the read-out that was asked, and leaves the factory with the
cells called; no other field changes (R3, R204). -/
def evaluate (operation : Wires → Build Driven) (s : State) : Host.Outcome State Fault Refusal :=
  match s.runNetlist operation with
  | .error r => .refused r
  | .ok (o, f) =>
    match o.readOut s.inputs.readOut with
    | .error r => .refused r
    | .ok reading => .next { s with factory := f, outputs := some { o with reading := reading } }

/-- The netlist of an assigned operation drives `ill <- 0` beside the operation's `r` and `cout` (R66). -/
def legal (net : Wires → Build (Word × Bit)) (w : Wires) : Build Driven := do
  let (r, cout) ← net w
  let ill ← constCell false
  pure { r := r, cout := cout, ill := ill }

/-- What a reserved code drives: `ill <- 1`, `r <- W'0`, `cout <- 0` (R66). -/
def illegalNet (W : Nat) (_ : Wires) : Build Driven := do
  let r ← constBits W 0
  let cout ← constCell false
  let ill ← constCell true
  pure { r := r, cout := cout, ill := ill }

/-- Taking IllegalOp (R66, R181, R188): the evaluation completes with the outputs of R181, and the model records the
fault with the offending code, which stops every later step. No output of this evaluation may be used (R181), so no
read-out is made of it (log entry 3). -/
def takeIllegalOp (code : BitVec 5) (s : State) : Host.Outcome State Fault Refusal :=
  match s.runNetlist (illegalNet s.width) with
  | .error r => .refused r
  | .ok (o, f) => .next { s with factory := f, outputs := some o, illegal := some code }

/-- The read-out of the counters on demand (R30). -/
def State.counters (s : State) : Nat × Nat := (s.factory.andCount, s.factory.xorCount)

end Sys2Proof.Machine
end

