-- ==== Sys2Proof/Machine/AddSub.lean ====
section
/-! DEFINITION. ADD and SUB (spec/41_add_sub.md). -/

namespace Sys2Proof.Machine

/-- ADD construction (R101): a half adder for bit 0, a full adder for each remaining bit, the final carry always built.
A word has at least one bit (R7). -/
def addNet : Word → Word → Build (Word × Bit)
  | x :: xs, y :: ys => do
    let (s, c) ← halfAdder x y
    let (ss, last) ← rippleChain xs ys c
    pure (s :: ss, last)
  | [], _ => Build.refuse .widthMismatch
  | _ :: _, [] => Build.refuse .widthMismatch

/-- The netlist of ADD: neither `ctrl` nor `cin` is read (R100). -/
def netAdd (w : Wires) : Build (Word × Bit) := addNet w.a w.b

/-- The netlist of SUB: the one subtractor (R105, R125). -/
def netSub (w : Wires) : Build (Word × Bit) := pure (w.difference, w.notBorrow)

/-- ADD (R100). -/
def execAdd (s : State) : Host.Outcome State Fault Refusal := evaluate (legal netAdd) s

/-- SUB (R104). -/
def execSub (s : State) : Host.Outcome State Fault Refusal := evaluate (legal netSub) s

end Sys2Proof.Machine
end

