-- ==== Sys2Proof/Machine/Shift.lean ====
section
/-! DEFINITION. The one-position shifts and rotates (spec/44_shift_rotate.md section 1): pure wiring. -/

namespace Sys2Proof.Machine

/-- `LEFT(x, e)` (R150): `e` enters at bit 0, the top bit leaves. A word has at least one bit (R7). -/
def leftWiring (x : Word) (e : Bit) : Build (Word × Bit) :=
  match x.getLast? with
  | some out => pure (e :: x.dropLast, out)
  | none => Build.refuse .widthMismatch

/-- `RIGHT(x, e)` (R150): `e` enters at bit `W-1`, bit 0 leaves. -/
def rightWiring (x : Word) (e : Bit) : Build (Word × Bit) :=
  match x with
  | out :: rest => pure (rest ++ [e], out)
  | [] => Build.refuse .widthMismatch

/-- The top bit of a word. -/
def topBit (x : Word) : Build Bit :=
  match x.getLast? with
  | some e => pure e
  | none => Build.refuse .widthMismatch

/-- Bit 0 of a word. -/
def bottomBit (x : Word) : Build Bit :=
  match x with
  | e :: _ => pure e
  | [] => Build.refuse .widthMismatch

/-- SHL: 0 enters (R153). -/
def netShl (w : Wires) : Build (Word × Bit) := do
  let e ← constCell false
  leftWiring w.a e

/-- SHR: 0 enters (R154). -/
def netShr (w : Wires) : Build (Word × Bit) := do
  let e ← constCell false
  rightWiring w.a e

/-- SAR: `a[W-1]` enters (R155). -/
def netSar (w : Wires) : Build (Word × Bit) := do
  let e ← topBit w.a
  rightWiring w.a e

/-- ROL: `a[W-1]` enters (R156). -/
def netRol (w : Wires) : Build (Word × Bit) := do
  let e ← topBit w.a
  leftWiring w.a e

/-- ROR: `a[0]` enters (R157). -/
def netRor (w : Wires) : Build (Word × Bit) := do
  let e ← bottomBit w.a
  rightWiring w.a e

/-- RCL: `cin` enters (R158). -/
def netRcl (w : Wires) : Build (Word × Bit) := leftWiring w.a w.cin

/-- RCR: `cin` enters (R159). -/
def netRcr (w : Wires) : Build (Word × Bit) := rightWiring w.a w.cin

/-- SHL (R153). -/
def execShl (s : State) : Host.Outcome State Fault Refusal := evaluate (legal netShl) s

/-- SHR (R154). -/
def execShr (s : State) : Host.Outcome State Fault Refusal := evaluate (legal netShr) s

/-- SAR (R155). -/
def execSar (s : State) : Host.Outcome State Fault Refusal := evaluate (legal netSar) s

/-- ROL (R156). This is the block's operation, not the enclosing CPU's opcode of that name. -/
def execRol (s : State) : Host.Outcome State Fault Refusal := evaluate (legal netRol) s

/-- ROR (R157). -/
def execRor (s : State) : Host.Outcome State Fault Refusal := evaluate (legal netRor) s

/-- RCL (R158). -/
def execRcl (s : State) : Host.Outcome State Fault Refusal := evaluate (legal netRcl) s

/-- RCR (R159). -/
def execRcr (s : State) : Host.Outcome State Fault Refusal := evaluate (legal netRcr) s

end Sys2Proof.Machine
end

