-- ==== Sys2Proof/Machine/Barrel.lean ====
section
/-! DEFINITION. The variable-amount shifts and rotates (spec/44_shift_rotate.md section 2): a cascade of `W` SEL stages,
one for each bit of `b`, whose netlist is the same for every amount (R178). -/

namespace Sys2Proof.Machine

/-- `FIX(x, k)` to the left, `fill` entering: the word of fill bits when `k >= W` (R175). -/
def fixLeft (fill : Bit) (k : Nat) (x : Word) : Word :=
  (List.range x.length).map fun i => if i < k then fill else x.getD (i - k) fill

/-- `FIX(x, k)` to the right, `fill` entering (R175). -/
def fixRight (fill : Bit) (k : Nat) (x : Word) : Word :=
  (List.range x.length).map fun i => x.getD (i + k) fill

/-- `FIX(x, k)` of BROL: bit `i` comes from bit `(i - k) mod W` (R175). The default is never taken: the index is in range. -/
def fixRotateLeft (k : Nat) (x : Word) : Word :=
  (List.range x.length).map fun i => x.getD ((i + (x.length - k % x.length)) % x.length) (.concrete false)

/-- `FIX(x, k)` of BROR: bit `i` comes from bit `(i + k) mod W` (R175). The default is never taken. -/
def fixRotateRight (k : Nat) (x : Word) : Word :=
  (List.range x.length).map fun i => x.getD ((i + k % x.length) % x.length) (.concrete false)

/-- The cascade (R175): stage `j` keeps `FIX(x, 2^j)` when `b[j] = 1`. The amount bits from `j` up are given. -/
def barrel (fix : Nat → Word → Build Word) : Nat → Word → Word → Build Word
  | _, [], x => pure x
  | j, bj :: bs, x => do
    let y ← fix (2 ^ j) x
    let x' ← muxWord bj y x
    barrel fix (j + 1) bs x'

/-- A barrel operation: the cascade over all of `b` (R169), and `cout` constant 0. -/
def barrelNet (fix : Nat → Word → Build Word) (w : Wires) : Build (Word × Bit) := do
  let r ← barrel fix 0 w.b w.a
  let cout ← constCell false
  pure (r, cout)

/-- The stage of BSHL. One CONST(false) cell a stage, read by every vacated bit of it: DESIGN CHOICE, since R175 does not say
how many cells the fill of 0 uses (log entry 12). -/
def stageBshl (k : Nat) (x : Word) : Build Word := do
  let z ← constCell false
  pure (fixLeft z k x)

/-- The stage of BSHR. One CONST(false) cell a stage, as in BSHL: DESIGN CHOICE (R175, log entry 12). -/
def stageBshr (k : Nat) (x : Word) : Build Word := do
  let z ← constCell false
  pure (fixRight z k x)

/-- The stage of BSAR: it fills with `x[W-1]`. -/
def stageBsar (k : Nat) (x : Word) : Build Word := do
  let e ← topBit x
  pure (fixRight e k x)

/-- The stage of BROL. -/
def stageBrol (k : Nat) (x : Word) : Build Word := pure (fixRotateLeft k x)

/-- The stage of BROR. -/
def stageBror (k : Nat) (x : Word) : Build Word := pure (fixRotateRight k x)

/-- The netlist of BSHL. -/
def netBshl (w : Wires) : Build (Word × Bit) := barrelNet stageBshl w

/-- The netlist of BSHR. -/
def netBshr (w : Wires) : Build (Word × Bit) := barrelNet stageBshr w

/-- The netlist of BSAR. -/
def netBsar (w : Wires) : Build (Word × Bit) := barrelNet stageBsar w

/-- The netlist of BROL. -/
def netBrol (w : Wires) : Build (Word × Bit) := barrelNet stageBrol w

/-- The netlist of BROR. -/
def netBror (w : Wires) : Build (Word × Bit) := barrelNet stageBror w

/-- BSHL (R170). -/
def execBshl (s : State) : Host.Outcome State Fault Refusal := evaluate (legal netBshl) s

/-- BSHR (R171). -/
def execBshr (s : State) : Host.Outcome State Fault Refusal := evaluate (legal netBshr) s

/-- BSAR (R172). -/
def execBsar (s : State) : Host.Outcome State Fault Refusal := evaluate (legal netBsar) s

/-- BROL (R173). -/
def execBrol (s : State) : Host.Outcome State Fault Refusal := evaluate (legal netBrol) s

/-- BROR (R174). -/
def execBror (s : State) : Host.Outcome State Fault Refusal := evaluate (legal netBror) s

end Sys2Proof.Machine
end

