-- ==== Sys2Proof/Machine/Compare.lean ====
section
/-! DEFINITION. CMP (spec/42_compare.md). -/

namespace Sys2Proof.Machine

/-- The netlist of CMP: `r` passes `a` through, `cout` is the subtractor's (R124). -/
def netCmp (w : Wires) : Build (Word × Bit) := pure (w.a, w.notBorrow)

/-- CMP (R124). -/
def execCmp (s : State) : Host.Outcome State Fault Refusal := evaluate (legal netCmp) s

end Sys2Proof.Machine
end

