-- ==== Sys2Proof/Machine/Select.lean ====
section
/-! DEFINITION. SEL (spec/43_select.md). -/

namespace Sys2Proof.Machine

/-- The netlist of SEL: both candidates enter every MUX cell (R141, R142), and `cout` is constant 0 (R140). -/
def netSel (w : Wires) : Build (Word × Bit) := do
  let r ← muxWord w.ctrl w.a w.b
  let cout ← constCell false
  pure (r, cout)

/-- SEL (R140). -/
def execSel (s : State) : Host.Outcome State Fault Refusal := evaluate (legal netSel) s

end Sys2Proof.Machine
end

