-- ==== Sys2Proof/Machine/Dispatch.lean ====
section
/-! DEFINITION. The meaning of each instruction (spec/30_encoding.md R67). -/

namespace Sys2Proof.Machine

def exec (i : Instr) (s : State) : Host.Outcome State Fault Refusal :=
  match i with
  | .add => Sys2Proof.Machine.execAdd s
  | .sub => Sys2Proof.Machine.execSub s
  | .cmp => Sys2Proof.Machine.execCmp s
  | .sel => Sys2Proof.Machine.execSel s
  | .shl => Sys2Proof.Machine.execShl s
  | .shr => Sys2Proof.Machine.execShr s
  | .sar => Sys2Proof.Machine.execSar s
  | .rol => Sys2Proof.Machine.execRol s
  | .ror => Sys2Proof.Machine.execRor s
  | .rcl => Sys2Proof.Machine.execRcl s
  | .rcr => Sys2Proof.Machine.execRcr s
  | .bshl => Sys2Proof.Machine.execBshl s
  | .bshr => Sys2Proof.Machine.execBshr s
  | .bsar => Sys2Proof.Machine.execBsar s
  | .brol => Sys2Proof.Machine.execBrol s
  | .bror => Sys2Proof.Machine.execBror s

end Sys2Proof.Machine
end

