-- ==== Sys2Proof/Machine/SymbolicOp.lean ====
section
/-! DEFINITION. The evaluation of the Circuit realization whose `op` is symbolic (spec/30_encoding.md R69): every
operation's result is computed and MUX cells driven by the bits of `op` choose the outputs. -/

namespace Sys2Proof.Machine

/-- The netlist of each operation. -/
def netOf (i : Instr) : Wires → Build (Word × Bit) :=
  match i with
  | .add => netAdd
  | .sub => netSub
  | .cmp => netCmp
  | .sel => netSel
  | .shl => netShl
  | .shr => netShr
  | .sar => netSar
  | .rol => netRol
  | .ror => netRor
  | .rcl => netRcl
  | .rcr => netRcr
  | .bshl => netBshl
  | .bshr => netBshr
  | .bsar => netBsar
  | .brol => netBrol
  | .bror => netBror

/-- The netlist of one code, assigned or reserved (R67). -/
def netOfCode (W : Nat) (code : BitVec 5) : Wires → Build Driven :=
  match decode code with
  | .ok i => legal (netOf i)
  | .error _ => illegalNet W

/-- What a code drives, as one word: the bits of `r`, then `cout`, then `ill`. -/
def Driven.bundle (d : Driven) : Word := d.r ++ [d.cout, d.ill]

/-- The bundles of the codes `c`, `c + 1`, …, `n` of them. -/
def bundlesFrom (W : Nat) (w : Wires) : Nat → Nat → Build (List Word)
  | 0, _ => pure []
  | n + 1, c => do
    let d ← netOfCode W (BitVec.ofNat 5 c) w
    let rest ← bundlesFrom W w n (c + 1)
    pure (d.bundle :: rest)

/-- One level of choice by one bit of `op`: of each two neighbours, the second where the bit is 1. -/
def chooseLevel (x : Bit) : List Word → Build (List Word)
  | w0 :: w1 :: rest => do
    let w ← muxWord x w1 w0
    let ws ← chooseLevel x rest
    pure (w :: ws)
  | [w] => pure [w]
  | [] => pure []

/-- All levels, from bit 0 of `op` up. -/
def chooseTree : Word → List Word → Build (List Word)
  | [], ws => pure ws
  | x :: xs, ws => do
    let ws' ← chooseLevel x ws
    chooseTree xs ws'

/-- The netlist of the block for a symbolic `op`. The arrangement of the MUX cells is a DESIGN CHOICE (log entry 6): R69
fixes the values only. -/
def symbolicNet (op : Drive) (W : Nat) (w : Wires) : Build Driven := do
  let x ← op.read 5
  let ws ← bundlesFrom W w 32 0
  let chosen ← chooseTree x ws
  match chosen with
  | [bits] =>
    match bits.drop W with
    | [cout, ill] => pure { r := bits.take W, cout := cout, ill := ill }
    | _ => Build.refuse .widthMismatch
  | _ => Build.refuse .widthMismatch

/-- The counters after a symbolic `op`: a free number of calls more (R69, spec/93 part 1, log entry 6). -/
def State.freeCounts (s : State) (f : Factory) : Factory :=
  { f with andCount := s.factory.andCount + Config.freeAndCount s.freeIndex
           xorCount := s.factory.xorCount + Config.freeXorCount s.freeIndex }

/-- An evaluation whose `op` is not constant. Whether it is illegal is the value of the `ill` bit under an assignment, so
the fault is recorded for the assignments that make it 1 (R181, log entry 3). A read-out is refused before (R183): a symbolic `op` stands in the Circuit realization only. -/
def evaluateSymbolicOp (s : State) : Host.Outcome State Fault Refusal :=
  match s.runNetlist (symbolicNet s.inputs.op s.width) with
  | .error r => .refused r
  | .ok (o, f) =>
    .next { s with
      factory := s.freeCounts f
      outputs := some o
      illegalIf := s.illegalIf ++ [{ op := s.inputs.op, ill := o.ill }]
      freeIndex := s.freeIndex + 1 }

end Sys2Proof.Machine
end

