-- ==== Sys2Proof/Machine/Step.lean ====
section
/-! DEFINITION. One step: one evaluation of the block on what the environment drives (spec/10_state.md R21, R43). -/

namespace Sys2Proof.Machine

/-- One evaluation. A recorded IllegalOp is final (R181). A constant code selects its operation, or, reserved, takes
IllegalOp (R66); otherwise every operation is computed and `op` chooses (R69), unless the inputs are refused (R184). -/
def step (s : State) : Host.Outcome State Fault Refusal :=
  match s.illegal with
  | some code => .fault (.illegalOp code)
  | none =>
    match s.opCode with
    | some code =>
      match decode code with
      | .ok i => exec i s
      | .error _ => takeIllegalOp code s
    | none => evaluateSymbolicOp s

/-- A port that is driven stays as it is; an undriven one is driven with 0, as a line of R72 drives the ports it does not
mention. -/
def Drive.orZero : Drive → Drive
  | .undriven => .literal 0
  | .literal k => .literal k
  | .inputs l => .inputs l
  | .word w => .word w
  | .output p => .output p
  | .throughLogic n p => .throughLogic n p

/-- The environment drives the control word `w` on `op`, and each port it has left undriven with 0, which an evaluation
needs (R203). The block fetches nothing (R21): `op` is where its next operation stands (log entry 2). -/
def State.withFetchWord (s : State) (_nbits w : Nat) : State :=
  { s with inputs := { s.inputs with
      op := .literal w
      a := s.inputs.a.orZero
      b := s.inputs.b.orZero
      ctrl := s.inputs.ctrl.orZero
      cin := s.inputs.cin.orZero } }

end Sys2Proof.Machine
end

