-- ==== Sys2Proof/Machine/Harness.lean ====
section
/-! DEFINITION. The harness of spec/30_encoding.md R72, outside the block: it holds words and four bits between
evaluations, drives the ports for one line, and writes back after the evaluation (spec/70_reset_and_hazards.md R206, R214). -/

namespace Sys2Proof.Machine

/-- The harness: the block it drives, its words `T0`, `T1`, …, and its bits `C`, `LT`, `EQ`, `GT`. A word or bit is kept as
what it drives on a port. -/
structure Harness where
  wdp   : State
  words : List Drive
  c     : Drive
  lt    : Drive
  eq    : Drive
  gt    : Drive
deriving DecidableEq, Repr

/-- A harness over a block, with its words; the four bits start at 0 (D22). -/
def Harness.start (wdp : State) (words : List Drive) : Harness :=
  { wdp := wdp, words := words, c := .literal 0, lt := .literal 0, eq := .literal 0, gt := .literal 0 }

/-- What a word source drives on a port of width `W` (R72). A word never written is undriven. DESIGN CHOICE (R207 and R72 do
not say it): a word that starts as INPUT cells or a literal is driven as such at every read, so each line and each port that
reads it makes its cells anew, the INPUT nodes under the same names; a word the harness has written back is its nodes, one
set for all readers (log entry 14). -/
def Harness.word (h : Harness) (W : Nat) : WordSrc → Drive
  | .reg i => h.words.getD i .undriven
  | .const k => .literal k
  | .negConst k => .literal ((-(k : Int)) % 2 ^ W)

/-- What a bit source drives (R72). -/
def Harness.bit (h : Harness) : BitSrc → Drive
  | .zero => .literal 0
  | .one => .literal 1
  | .c => h.c
  | .lt => h.lt
  | .eq => h.eq
  | .gt => h.gt

/-- What the line drives on the ports: `op` with the mnemonic's code, an absent `y` as `W'0`;
`c` stands on `ctrl` in a SEL and on `cin` in an RCL or RCR, and what is absent is 0 (R72 and the traces of spec/95 section 5). -/
def Harness.drive (h : Harness) (l : Line) : Inputs :=
  { h.wdp.inputs with
    op := .literal (encode l.instr).toNat
    a := h.word h.wdp.width l.x
    b := match l.y with
      | some y => h.word h.wdp.width y
      | none => .literal 0
    ctrl := match l.instr, l.c with
      | .sel, some src => h.bit src
      | _, _ => .literal 0
    cin := match l.instr, l.c with
      | .rcl, some src => h.bit src
      | .rcr, some src => h.bit src
      | _, _ => .literal 0 }

/-- Word `i` of the harness replaced, the list made longer with undriven words where it is short. -/
def setWord (d : Drive) : Nat → List Drive → List Drive
  | 0, [] => [d]
  | 0, _ :: ws => d :: ws
  | i + 1, [] => .undriven :: setWord d i []
  | i + 1, w :: ws => w :: setWord d i ws

/-- The harness after an evaluation of its block gave `s` with outputs `o`: `r` written to the destination if one is
given, `cout`, `lt`, `eq`, `gt` latched (R72). -/
def Harness.latch (h : Harness) (s : State) (o : Outputs) (dest : Option Nat) : Harness :=
  { wdp := s
    words := match dest with
      | some d => setWord (.word o.r) d h.words
      | none => h.words
    c := .word [o.cout]
    lt := .word [o.lt]
    eq := .word [o.eq]
    gt := .word [o.gt] }

/-- One line: one evaluation of the block with the values the harness held before it, then the write-back (R206). Which
lines are well formed is `Line.wf`. -/
def Harness.runLine (h : Harness) (l : Line) : Host.Outcome Harness Fault Refusal :=
  match step { h.wdp with inputs := h.drive l } with
  | .fault e => .fault e
  | .refused r => .refused r
  | .next s =>
    match s.outputs with
    | some o => .next (h.latch s o l.dest)
    | none => .refused .undrivenPort

/-- A program: its lines in order. -/
def Harness.runLines : List Line → Harness → Host.Outcome Harness Fault Refusal
  | [], h => .next h
  | l :: ls, h =>
    match h.runLine l with
    | .next h' => Harness.runLines ls h'
    | .fault e => .fault e
    | .refused r => .refused r

end Sys2Proof.Machine
end

