-- ==== Sys2Proof/Machine/Graph.lean ====
section
/-! DEFINITION. The value of a bit: its own in the Concrete realization, the value of its node under an assignment of
the INPUT nodes in the Circuit realization (spec/10_state.md R28). -/

namespace Sys2Proof.Machine

/-- A value for every INPUT name. It is an argument of an evaluation of the graph, never part of State. -/
abbrev Assignment := InputName → Bool

/-- The value of one node, given the values of the nodes made before it. -/
def Node.eval (ρ : Assignment) (before : List Bool) : Node → Bool
  | .input name => ρ name
  | .constant v => v
  | .and l r => before.getD l false && before.getD r false
  | .xor l r => before.getD l false ^^ before.getD r false
  | .output _ x => before.getD x false

/-- The values of all nodes of a graph, in the order of the nodes: every node reads nodes made before it (R32). -/
def graphValues (ρ : Assignment) (graph : List Node) : List Bool :=
  graph.foldl (fun vs n => vs ++ [Node.eval ρ vs n]) []

/-- The value of a bit of a factory under an assignment (R28). -/
def Factory.bitValue (f : Factory) (ρ : Assignment) : Bit → Bool
  | .concrete v => v
  | .symbolic n => (graphValues ρ f.graph).getD n false

/-- The values of a word's bits. -/
def Factory.wordBits (f : Factory) (ρ : Assignment) (w : Word) : List Bool := w.map (f.bitValue ρ)

/-- `uval` of a sequence of bits, least significant first (spec/00_scope.md R11). -/
def uval : List Bool → Nat
  | [] => 0
  | b :: bs => b.toNat + 2 * uval bs

/-- The `W`-bit word whose bits are given, least significant first. -/
def wordOf (W : Nat) (bits : List Bool) : BitVec W := BitVec.ofNat W (uval bits)

/-- What an input port of width `W` holds under an assignment: the literal, the INPUT values, or the word's value.
A port driven in another way has no value: its evaluation is refused, and no rule reads what stands here for it. -/
def Drive.bits (f : Factory) (ρ : Assignment) (W : Nat) : Drive → List Bool
  | .literal k => (List.range W).map fun i => k.toNat.testBit i
  | .inputs label => (List.range W).map fun i => ρ { label := label, bit := i }
  | .word w => f.wordBits ρ w
  | .undriven => []
  | .output _ => []
  | .throughLogic _ _ => []

end Sys2Proof.Machine
end

