-- ==== Sys2Proof/Machine/Functional.lean ====
section
/-! DEFINITION. The functional semantics of the block: the output function of spec/30_encoding.md R67 with the
operation rules of files 41 to 44, on word values. Spec/00_scope.md R4 lets a model give it beside the netlist that `exec` runs and
requires the two to agree; `exec` does not use this file. -/

namespace Sys2Proof.Machine.Functional

/-- `word(n)`: the word with `uval` equal to `n mod 2^W` (R11). -/
def word (W : Nat) (n : Int) : BitVec W := BitVec.ofInt W n

/-- The word whose bit `i` is `bit i` (R10). -/
def bitsOf (W : Nat) (bit : Nat → Bool) : BitVec W := wordOf W ((List.range W).map bit)

variable {W : Nat}

/-- R100: sum and carry out of bit `W-1`. -/
def add (a b : BitVec W) : BitVec W × Bool :=
  let sum := a.toNat + b.toNat
  (word W sum, decide (2 ^ W ≤ sum))

/-- R104: difference and carry out, 1 for no borrow. -/
def sub (a b : BitVec W) : BitVec W × Bool :=
  let t := a.toNat + (~~~b).toNat + 1
  (word W t, decide (2 ^ W ≤ t))

/-- R120: the comparison difference. -/
def difference (a b : BitVec W) : BitVec W := word W ((a.toNat : Int) - b.toNat)

/-- R122: the sign bit of the difference. -/
def lt (a b : BitVec W) : Bool := (difference a b).getLsbD (W - 1)

/-- R121: the difference is zero. -/
def eq (a b : BitVec W) : Bool := decide ((difference a b).toNat = 0)

/-- R123. -/
def gt (a b : BitVec W) : Bool := !lt a b && !eq a b

/-- R140. -/
def sel (ctrl : Bool) (a b : BitVec W) : BitVec W :=
  bitsOf W fun i => if ctrl then a.getLsbD i else b.getLsbD i

/-- `LEFT(x, e)` of R150. -/
def left (x : BitVec W) (e : Bool) : BitVec W × Bool :=
  (bitsOf W fun i => if i = 0 then e else x.getLsbD (i - 1), x.getLsbD (W - 1))

/-- `RIGHT(x, e)` of R150. -/
def right (x : BitVec W) (e : Bool) : BitVec W × Bool :=
  (bitsOf W fun i => if i = W - 1 then e else x.getLsbD (i + 1), x.getLsbD 0)

/-- R153. -/
def shl (a : BitVec W) : BitVec W × Bool := left a false

/-- R154. -/
def shr (a : BitVec W) : BitVec W × Bool := right a false

/-- R155. -/
def sar (a : BitVec W) : BitVec W × Bool := right a (a.getLsbD (W - 1))

/-- R156. -/
def rol (a : BitVec W) : BitVec W × Bool := left a (a.getLsbD (W - 1))

/-- R157. -/
def ror (a : BitVec W) : BitVec W × Bool := right a (a.getLsbD 0)

/-- R158. -/
def rcl (a : BitVec W) (cin : Bool) : BitVec W × Bool := left a cin

/-- R159. -/
def rcr (a : BitVec W) (cin : Bool) : BitVec W × Bool := right a cin

/-- R170: `word(uval(a) * 2^n)` with `n = uval(b)`. -/
def bshl (a b : BitVec W) : BitVec W := word W (a.toNat * 2 ^ b.toNat : Nat)

/-- R171: `floor(uval(a) / 2^n)`. -/
def bshr (a b : BitVec W) : BitVec W := word W (a.toNat / 2 ^ b.toNat : Nat)

/-- R172: `word(floor(sval(a) / 2^n))`. -/
def bsar (a b : BitVec W) : BitVec W := word W (a.toInt / 2 ^ b.toNat)

/-- R173: `r[i] = a[(i - k) mod W]` with `k = n mod W`. -/
def brol (a b : BitVec W) : BitVec W := bitsOf W fun i => a.getLsbD ((i + (W - b.toNat % W)) % W)

/-- R174: `r[i] = a[(i + k) mod W]` with `k = n mod W`. -/
def bror (a b : BitVec W) : BitVec W := bitsOf W fun i => a.getLsbD ((i + b.toNat % W) % W)

/-- Values on the input ports (R22). -/
structure Ports (W : Nat) where
  op   : BitVec 5
  a    : BitVec W
  b    : BitVec W
  ctrl : Bool
  cin  : Bool
deriving DecidableEq, Repr

/-- Values on the output ports (R23). -/
structure Values (W : Nat) where
  r    : BitVec W
  cout : Bool
  lt   : Bool
  eq   : Bool
  gt   : Bool
  ill  : Bool
deriving DecidableEq, Repr

/-- The arm of R67 for an assigned code: `r` and `cout`. -/
def result (i : Instr) (p : Ports W) : BitVec W × Bool :=
  match i with
  | .add => add p.a p.b
  | .sub => sub p.a p.b
  | .cmp => (p.a, (sub p.a p.b).2)
  | .sel => (sel p.ctrl p.a p.b, false)
  | .shl => shl p.a
  | .shr => shr p.a
  | .sar => sar p.a
  | .rol => rol p.a
  | .ror => ror p.a
  | .rcl => rcl p.a p.cin
  | .rcr => rcr p.a p.cin
  | .bshl => (bshl p.a p.b, false)
  | .bshr => (bshr p.a p.b, false)
  | .bsar => (bsar p.a p.b, false)
  | .brol => (brol p.a p.b, false)
  | .bror => (bror p.a p.b, false)

/-- All output ports for an assigned code. -/
def instrOutputs (i : Instr) (p : Ports W) : Values W :=
  { r := (result i p).1, cout := (result i p).2,
    lt := lt p.a p.b, eq := eq p.a p.b, gt := gt p.a p.b, ill := false }

/-- All output ports for a reserved code (R66, R181). -/
def illegalOutputs (p : Ports W) : Values W :=
  { r := 0, cout := false, lt := lt p.a p.b, eq := eq p.a p.b, gt := gt p.a p.b, ill := true }

/-- The output function of the block, total on all 32 codes (R67). -/
def outputs (p : Ports W) : Values W :=
  match decode p.op with
  | .ok i => instrOutputs i p
  | .error _ => illegalOutputs p

end Sys2Proof.Machine.Functional

namespace Sys2Proof.Machine

/-- The value of bit `i` of a port, a missing bit being 0. -/
def Drive.bit (f : Factory) (ρ : Assignment) (W : Nat) (d : Drive) : Bool := (d.bits f ρ W).getD 0 false

/-- The values on the input ports under an assignment. -/
def State.ports (s : State) (ρ : Assignment) : Functional.Ports s.width :=
  { op := wordOf 5 (s.inputs.op.bits s.factory ρ 5)
    a := wordOf s.width (s.inputs.a.bits s.factory ρ s.width)
    b := wordOf s.width (s.inputs.b.bits s.factory ρ s.width)
    ctrl := s.inputs.ctrl.bit s.factory ρ 1
    cin := s.inputs.cin.bit s.factory ρ 1 }

/-- The values on output ports of width `W` under an assignment. -/
def Outputs.values (o : Outputs) (W : Nat) (f : Factory) (ρ : Assignment) : Functional.Values W :=
  { r := wordOf W (f.wordBits ρ o.r)
    cout := f.bitValue ρ o.cout
    lt := f.bitValue ρ o.lt
    eq := f.bitValue ρ o.eq
    gt := f.bitValue ρ o.gt
    ill := f.bitValue ρ o.ill }

end Sys2Proof.Machine
end

