-- ==== Sys2Proof/Machine/Assigned.lean ====
section
/-! DEFINITION. The machine under one assignment of the INPUT nodes: the faults recorded there, the outputs that may be used,
and the step of that run (spec/30_encoding.md R69, spec/60_exceptions.md R181). -/

namespace Sys2Proof.Machine

/-- The offending code of an evaluation with a symbolic `op` under an assignment: the value of `op` where `ill` is 1
(R181). -/
def IllegalRecord.codeUnder (x : IllegalRecord) (f : Factory) (ρ : Assignment) : Option (BitVec 5) :=
  if f.bitValue ρ x.ill then some (wordOf 5 (x.op.bits f ρ 5)) else none

/-- The fault recorded under an assignment, the oldest first: it is final for the run, so a later one does not replace it
(R181). -/
def State.illegalUnder (s : State) (ρ : Assignment) : Option (BitVec 5) :=
  (s.illegalIf.findSome? fun x => x.codeUnder s.factory ρ).or s.illegal

/-- The values on the output ports that may be used under an assignment: none once IllegalOp is recorded there (R181). -/
def State.outputsUnder (s : State) (ρ : Assignment) : Option (Functional.Values s.width) :=
  match s.illegalUnder ρ with
  | some _ => none
  | none => s.outputs.map fun o => o.values s.width s.factory ρ

/-- A step of the run under one assignment. It stops in every state in which IllegalOp is recorded there (R181); `step` goes
on in such a state for the other assignments, whose evaluations exist (log entry 3). -/
def stepUnder (ρ : Assignment) (s : State) : Host.Outcome State Fault Refusal :=
  match s.illegalUnder ρ with
  | some code => .fault (.illegalOp code)
  | none => step s

end Sys2Proof.Machine
end

