-- ==== Sys2Proof/Machine/Cost.lean ====
section
/-! DEFINITION. The gate-cost increments of spec/70_reset_and_hazards.md R212, as functions of the width, and the logic depth
of a node of R211. -/

namespace Sys2Proof.Machine

/-- The AND calls of an operation's own construction, the subtractor's among them for SUB and CMP (R212). -/
def operationAnd (i : Instr) (W : Nat) : Nat :=
  match i with
  | .add => 2 * W - 1
  | .sub => 2 * W
  | .cmp => 3 * W
  | .sel => W
  | .shl | .shr | .sar | .rol | .ror | .rcl | .rcr => 0
  | .bshl | .bshr | .bsar | .brol | .bror => W * W

/-- The XOR calls of an operation's own construction (R212). -/
def operationXor (i : Instr) (W : Nat) : Nat :=
  match i with
  | .add => 3 * W - 2
  | .sub => 4 * W
  | .cmp => 5 * W + 2
  | .sel => 2 * W
  | .shl | .shr | .sar | .rol | .ror | .rcl | .rcr => 0
  | .bshl | .bshr | .bsar | .brol | .bror => 2 * (W * W)

/-- The AND calls of the comparator with its subtractor (R125, R212). -/
def comparatorAnd (W : Nat) : Nat := 3 * W

/-- The XOR calls of the comparator with its subtractor (R125, R212). -/
def comparatorXor (W : Nat) : Nat := 5 * W + 2

/-- The AND calls of a whole evaluation: the comparator, counted once and shared with SUB and CMP, and the operation
(R212; log entry 9). -/
def evaluationAnd (i : Instr) (W : Nat) : Nat :=
  match i with
  | .sub | .cmp => comparatorAnd W
  | .add | .sel | .shl | .shr | .sar | .rol | .ror | .rcl | .rcr | .bshl | .bshr | .bsar | .brol | .bror =>
    comparatorAnd W + operationAnd i W

/-- The XOR calls of a whole evaluation (R212; log entry 9). -/
def evaluationXor (i : Instr) (W : Nat) : Nat :=
  match i with
  | .sub | .cmp => comparatorXor W
  | .add | .sel | .shl | .shr | .sar | .rol | .ror | .rcl | .rcr | .bshl | .bshr | .bsar | .brol | .bror =>
    comparatorXor W + operationXor i W

/-- A gate: the nodes that count in the depth of R211. -/
def Node.isGate : Node → Bool
  | .and _ _ => true
  | .xor _ _ => true
  | .input _ => false
  | .constant _ => false
  | .output _ _ => false

/-- An AND gate: the nodes that count in the AND-depth of R211. -/
def Node.isAnd : Node → Bool
  | .and _ _ => true
  | .xor _ _ => false
  | .input _ => false
  | .constant _ => false
  | .output _ _ => false

/-- For every node, the largest number of nodes `counted` on one path that ends in it (R211). -/
def graphDepths (counted : Node → Bool) (graph : List Node) : List Nat :=
  graph.foldl (fun ds n => ds ++ [(counted n).toNat + (n.operands.map fun m => ds.getD m 0).foldl max 0]) []

/-- The gate depth and the AND-depth of a bit (R211); a concrete bit has no netlist and depth 0. -/
def bitDepths (graph : List Node) : Bit → Nat × Nat
  | .concrete _ => (0, 0)
  | .symbolic n => ((graphDepths Node.isGate graph).getD n 0, (graphDepths Node.isAnd graph).getD n 0)

end Sys2Proof.Machine
end

