-- ==== Sys2Proof/Safety.lean ====
section
/-! DEFINITION. What the claims are about: a well-built factory, the invariant of the machine, what an evaluation leaves
unchanged, and when a step is safe. -/

namespace Sys2Proof.Machine

/-- Every node of the list, the first of which stands at place `k`, reads only nodes that stand before it: the graph is
acyclic (spec/10_state.md R32). -/
def acyclicFrom : Nat → List Node → Bool
  | _, [] => true
  | k, n :: ns => n.operands.all (fun m => decide (m < k)) && acyclicFrom (k + 1) ns

/-- A factory as creation and cell calls leave it: its graph is acyclic, and empty in the Concrete realization. -/
def Factory.wellBuilt (f : Factory) : Bool :=
  acyclicFrom 0 f.graph && (f.realization == .circuit || f.graph.isEmpty)

/-- A bit of this factory: of its realization, a symbolic one a reference to a node of its graph (R28). -/
def Factory.ownsBit (f : Factory) (x : Bit) : Bool := f.matchesBit x && f.hasNode x

/-- Output ports of width `W` made by this factory: `r` has `W` bits and every bit is the factory's (R23, R27). -/
def Outputs.fits (o : Outputs) (W : Nat) (f : Factory) : Bool :=
  o.r.length == W && o.r.all f.ownsBit && f.ownsBit o.cout && f.ownsBit o.lt && f.ownsBit o.eq && f.ownsBit o.gt &&
    f.ownsBit o.ill

/-- The outputs of R181, constant whatever the assignment: `ill` is 1, `r` zero and `cout` 0. -/
def Outputs.showIllegal (o : Outputs) (f : Factory) : Bool :=
  f.constValue o.ill == some true && o.r.all (fun x => f.constValue x == some false) && f.constValue o.cout == some false

/-- The record of an evaluation with a symbolic `op` belongs to this factory, a Circuit one: `ill` is a bit of it, and a word
on `op` is bits of it. -/
def IllegalRecord.fits (x : IllegalRecord) (f : Factory) : Bool :=
  f.realization == .circuit && f.ownsBit x.ill && x.op.realizationOk f && x.op.acyclic f

/-- The invariant of the machine: the factory is well built, the outputs last driven are words of the instance's width and
of its factory, a recorded IllegalOp names a reserved code and stands beside the outputs of R181, and the records of
evaluations with a symbolic `op` belong to the factory. -/
def State.inv (s : State) : Bool :=
  s.factory.wellBuilt &&
  (match s.outputs with
   | some o => o.fits s.width s.factory
   | none => true) &&
  (match s.illegal with
   | some code =>
     reservedCodes.contains code &&
     (match s.outputs with
      | some o => o.showIllegal s.factory
      | none => false)
   | none => true) &&
  s.illegalIf.all fun x => x.fits s.factory

/-- The factory `f'` is `f` after some cell calls: same realization and policy, no counter lower, and every earlier node in
its place (R29, R30, R32). -/
structure Factory.Extends (f f' : Factory) : Prop where
  realization : f'.realization = f.realization
  reuseNodes : f'.reuseNodes = f.reuseNodes
  andCount : f.andCount ≤ f'.andCount
  xorCount : f.xorCount ≤ f'.xorCount
  graph : f.graph <+: f'.graph

/-- What one evaluation leaves unchanged, whatever it computes: the instance's parameters and its input ports, and of the
factory everything but the calls it adds. -/
structure State.Kept (s t : State) : Prop where
  width : t.width = s.width
  inputs : t.inputs = s.inputs
  factory : s.factory.Extends t.factory

/-- The environment has made an evaluation possible: no input is refused (R184, R203). -/
abbrev State.InputsOk (s : State) : Prop := s.inputError = none

/-- A step is safe: nothing is refused, no fault is recorded under any assignment before it, and no assignment puts a reserved
code on `op`. -/
abbrev State.SafeToStep (s : State) : Prop :=
  s.InputsOk ∧ ∀ ρ, s.illegalUnder ρ = none ∧ (s.ports ρ).op ∉ reservedCodes

/-- The factory `f'` is `f` after exactly `na` calls of AND and `nx` of XOR (R29), and well built. -/
structure Factory.Calls (f f' : Factory) (na nx : Nat) : Prop where
  wellBuilt : f'.wellBuilt = true
  growth : f.Extends f'
  andCount : f'.andCount = f.andCount + na
  xorCount : f'.xorCount = f.xorCount + nx

/-- The instruction `i` completes from `s`: `exec` answers a next state that differs from `s` in the outputs and in the
factory's further cells only, and under every assignment the values `v` on the output ports stand in the relation `R` to
the values `p` on the input ports. -/
def State.Completes (s : State) (i : Instr) (R : Functional.Ports s.width → Functional.Values s.width → Prop) : Prop :=
  ∃ o f, exec i s = .next { s with factory := f, outputs := some o } ∧ s.factory.Extends f ∧
    o.fits s.width f = true ∧ ∀ ρ, R (s.ports ρ) (o.values s.width f ρ)

/-- A step from `s` gives `t` and `t` drives outputs of the instance's width whose values are `v`, for every assignment. -/
def State.StepsTo (s t : State) (v : Assignment → Functional.Values s.width) : Prop :=
  step s = .next t ∧ ∃ o, t.outputs = some o ∧ o.fits s.width t.factory = true ∧
    ∀ ρ, o.values s.width t.factory ρ = v ρ

/-- `uval` of the word `w` (R11). -/
def Factory.wordValue (f : Factory) (ρ : Assignment) (w : Word) : Nat := uval (f.wordBits ρ w)

end Sys2Proof.Machine
end

