-- ==== Sys2Proof/Certificates/Slice0/Obligations.lean ====
section
/-! DEFINITION. The statements for the provers. Each docstring names the rules of spec/ that the statement formalises. In
every statement about an evaluation, `ρ` is any assignment of the INPUT nodes: in the Concrete realization the values do
not depend on it. -/

section

open Sys2Proof Sys2Proof.Machine

/-! ### Decoding -/

/-- R62 to R65: all 32 codes of the opcode map, written bit by bit. -/
def Obligations.OpcodeMap : Prop :=
  (decode 0b00000#5 = .ok .add ∧ decode 0b00001#5 = .ok .sub ∧ decode 0b00010#5 = .ok .cmp ∧ decode 0b00011#5 = .ok .sel) ∧
  (∀ c ∈ [0b00100#5, 0b00101#5, 0b00110#5, 0b00111#5], decode c = .error (.reserved c)) ∧
  (decode 0b01000#5 = .ok .shl ∧ decode 0b01001#5 = .ok .shr ∧ decode 0b01011#5 = .ok .sar ∧ decode 0b01100#5 = .ok .rol ∧
    decode 0b01101#5 = .ok .ror ∧ decode 0b01110#5 = .ok .rcl ∧ decode 0b01111#5 = .ok .rcr) ∧
  decode 0b01010#5 = .error (.reserved 0b01010#5) ∧
  (decode 0b10000#5 = .ok .bshl ∧ decode 0b10001#5 = .ok .bshr ∧ decode 0b10011#5 = .ok .bsar ∧
    decode 0b10100#5 = .ok .brol ∧ decode 0b10101#5 = .ok .bror) ∧
  (∀ c ∈ [0b10010#5, 0b10110#5, 0b10111#5], decode c = .error (.reserved c)) ∧
  ∀ c : BitVec 5, familyField c = 0b11#2 → decode c = .error (.reserved c)

/-- R61, R66: decoding the code of a well-formed instruction gives it back, an assigned code is the code of the one
instruction it decodes to, and the codes that decode to none are the 16 of R66's list. -/
def Obligations.DecodeEncodeAgree : Prop :=
  (∀ i : Instr, i.wf = true → decode (encode i) = .ok i) ∧
  (∀ (c : BitVec 5) (i : Instr), decode c = .ok i → encode i = c) ∧
  (∀ c : BitVec 5, c ∈ reservedCodes ↔ decode c = .error (.reserved c)) ∧ reservedCodes.length = 16

/-- R60, R68: on any bit sequence the decoder reads an instruction exactly from its five bits, in their order, and a
sequence of another length is no control word; that the decoder rejects it by its length is the model's reading (log entry 13). -/
def Obligations.DecodeBitsExact : Prop :=
  (∀ (bits : List Bool) (i : Instr),
    decodeBits bits = .ok i ↔ bits = (List.range 5).map fun k => (encode i).getLsbD k) ∧
  ∀ bits : List Bool, bits.length ≠ 5 → decodeBits bits = .error (.badLength bits.length)

/-- R48, R67: a step in a state with no fault recorded, whose `op` holds the code of `i`, is `exec i` there, and
driving the code on `op` makes it so (`withFetchWord`, log entry 2). -/
def Obligations.StepRunsDecoded : Prop :=
  (∀ (s : State) (i : Instr), s.illegal = none → s.opCode = some (encode i) → step s = exec i s) ∧
  ∀ (s : State) (n : Nat) (i : Instr), s.illegal = none →
    step (s.withFetchWord n (encode i).toNat) = exec i (s.withFetchWord n (encode i).toNat)

/-! ### Each instruction completes, with its result and its frame -/

/-- R100. -/
def Obligations.AddCompletes : Prop :=
  encode .add = 0b00000#5 ∧ ∀ s : State, s.factory.wellBuilt = true → s.InputsOk → s.Completes .add fun p v =>
    v.r.toNat = (p.a.toNat + p.b.toNat) % 2 ^ s.width ∧ v.cout = decide (2 ^ s.width ≤ p.a.toNat + p.b.toNat) ∧
    v.ill = false

/-- R104. -/
def Obligations.SubCompletes : Prop :=
  encode .sub = 0b00001#5 ∧ ∀ s : State, s.factory.wellBuilt = true → s.InputsOk → s.Completes .sub fun p v =>
    let t := p.a.toNat + (2 ^ s.width - 1 - p.b.toNat) + 1
    v.r.toNat = t % 2 ^ s.width ∧ (v.r.toNat : Int) = ((p.a.toNat : Int) - p.b.toNat) % 2 ^ s.width ∧
    v.cout = decide (2 ^ s.width ≤ t) ∧ v.cout = decide (p.b.toNat ≤ p.a.toNat) ∧ v.ill = false

/-- R124, with the flags of R120 to R123. -/
def Obligations.CmpCompletes : Prop :=
  encode .cmp = 0b00010#5 ∧ ∀ s : State, s.factory.wellBuilt = true → s.InputsOk → s.Completes .cmp fun p v =>
    let d : BitVec s.width := BitVec.ofInt s.width ((p.a.toNat : Int) - p.b.toNat)
    v.lt = d.getLsbD (s.width - 1) ∧ v.eq = decide (d = 0) ∧ v.gt = (!v.lt && !v.eq) ∧
    v.r = p.a ∧ v.cout = decide (p.b.toNat ≤ p.a.toNat) ∧ v.ill = false

/-- R140. -/
def Obligations.SelCompletes : Prop :=
  encode .sel = 0b00011#5 ∧ ∀ s : State, s.factory.wellBuilt = true → s.InputsOk → s.Completes .sel fun p v =>
    (∀ i, i < s.width → v.r.getLsbD i = if p.ctrl then p.a.getLsbD i else p.b.getLsbD i) ∧
    v.r = (if p.ctrl then p.a else p.b) ∧ v.cout = false ∧ v.ill = false

/-- R153 to R155: SHL, SHR and SAR, by their bits and by their values. -/
def Obligations.ShiftsComplete : Prop :=
  encode .shl = 0b01000#5 ∧ encode .shr = 0b01001#5 ∧ encode .sar = 0b01011#5 ∧
  ∀ s : State, s.factory.wellBuilt = true → s.InputsOk →
    (s.Completes .shl fun p v =>
      (∀ i, i < s.width → v.r.getLsbD i = if i = 0 then false else p.a.getLsbD (i - 1)) ∧
      v.r.toNat = 2 * p.a.toNat % 2 ^ s.width ∧ v.cout = p.a.getLsbD (s.width - 1) ∧ v.ill = false) ∧
    (s.Completes .shr fun p v =>
      (∀ i, i < s.width → v.r.getLsbD i = if i = s.width - 1 then false else p.a.getLsbD (i + 1)) ∧
      v.r.toNat = p.a.toNat / 2 ∧ v.cout = p.a.getLsbD 0 ∧ v.ill = false) ∧
    (s.Completes .sar fun p v =>
      (∀ i, i < s.width →
        v.r.getLsbD i = if i = s.width - 1 then p.a.getLsbD (s.width - 1) else p.a.getLsbD (i + 1)) ∧
      v.r = BitVec.ofInt s.width (p.a.toInt / 2) ∧ v.cout = p.a.getLsbD 0 ∧ v.ill = false)

/-- R156, R157: ROL and ROR. -/
def Obligations.RotatesComplete : Prop :=
  encode .rol = 0b01100#5 ∧ encode .ror = 0b01101#5 ∧
  ∀ s : State, s.factory.wellBuilt = true → s.InputsOk →
    (s.Completes .rol fun p v =>
      (∀ i, i < s.width → v.r.getLsbD i = p.a.getLsbD ((i + s.width - 1) % s.width)) ∧
      v.cout = p.a.getLsbD (s.width - 1) ∧ v.ill = false) ∧
    (s.Completes .ror fun p v =>
      (∀ i, i < s.width → v.r.getLsbD i = p.a.getLsbD ((i + 1) % s.width)) ∧
      v.cout = p.a.getLsbD 0 ∧ v.ill = false)

/-- R158, R159: RCL and RCR. -/
def Obligations.CarryRotatesComplete : Prop :=
  encode .rcl = 0b01110#5 ∧ encode .rcr = 0b01111#5 ∧
  ∀ s : State, s.factory.wellBuilt = true → s.InputsOk →
    (s.Completes .rcl fun p v =>
      v.r.toNat = (2 * p.a.toNat + p.cin.toNat) % 2 ^ s.width ∧ v.cout = p.a.getLsbD (s.width - 1) ∧ v.ill = false) ∧
    (s.Completes .rcr fun p v =>
      v.r.toNat = p.a.toNat / 2 + p.cin.toNat * 2 ^ (s.width - 1) ∧ v.cout = p.a.getLsbD 0 ∧ v.ill = false)

/-- R170, R171: BSHL and BSHR by any amount. -/
def Obligations.BarrelLogicalComplete : Prop :=
  encode .bshl = 0b10000#5 ∧ encode .bshr = 0b10001#5 ∧
  ∀ s : State, s.factory.wellBuilt = true → s.InputsOk →
    (s.Completes .bshl fun p v =>
      v.r.toNat = p.a.toNat * 2 ^ p.b.toNat % 2 ^ s.width ∧
      (∀ i, i < s.width → v.r.getLsbD i = (decide (p.b.toNat ≤ i) && p.a.getLsbD (i - p.b.toNat))) ∧
      (s.width ≤ p.b.toNat → v.r = 0) ∧ v.cout = false ∧ v.ill = false) ∧
    (s.Completes .bshr fun p v =>
      v.r.toNat = p.a.toNat / 2 ^ p.b.toNat ∧
      (∀ i, i < s.width → v.r.getLsbD i = (decide (i + p.b.toNat < s.width) && p.a.getLsbD (i + p.b.toNat))) ∧
      (s.width ≤ p.b.toNat → v.r = 0) ∧ v.cout = false ∧ v.ill = false)

/-- R172: BSAR by any amount. -/
def Obligations.BarrelArithmeticCompletes : Prop :=
  encode .bsar = 0b10011#5 ∧ ∀ s : State, s.factory.wellBuilt = true → s.InputsOk → s.Completes .bsar fun p v =>
    v.r = BitVec.ofInt s.width (p.a.toInt / 2 ^ p.b.toNat) ∧
    (∀ i, i < s.width → v.r.getLsbD i =
      if i + p.b.toNat < s.width then p.a.getLsbD (i + p.b.toNat) else p.a.getLsbD (s.width - 1)) ∧
    v.cout = false ∧ v.ill = false

/-- R173, R174: BROL and BROR by any amount, reduced modulo the width, a power of two or not. -/
def Obligations.BarrelRotatesComplete : Prop :=
  encode .brol = 0b10100#5 ∧ encode .bror = 0b10101#5 ∧
  ∀ s : State, s.factory.wellBuilt = true → s.InputsOk →
    (s.Completes .brol fun p v =>
      (∀ i, i < s.width → v.r.getLsbD i =
        p.a.getLsbD ((((i : Int) - (p.b.toNat % s.width : Nat)) % (s.width : Int)).toNat)) ∧
      v.cout = false ∧ v.ill = false) ∧
    (s.Completes .bror fun p v =>
      (∀ i, i < s.width → v.r.getLsbD i = p.a.getLsbD ((i + p.b.toNat % s.width) % s.width)) ∧
      v.cout = false ∧ v.ill = false)

/-! ### The flags -/

/-- R24, R120, R121: at every evaluation, whatever `op` holds, assigned, reserved or symbolic, the flags are those of
`compare(a, b)`, and so depend on `a` and `b` only. -/
def Obligations.FlagsAtEveryEvaluation : Prop :=
  ∀ s : State, s.factory.wellBuilt = true → s.InputsOk → s.illegal = none →
    ∃ t o, step s = .next t ∧ t.outputs = some o ∧ ∀ ρ,
      let p := s.ports ρ
      let v := o.values s.width t.factory ρ
      let d : BitVec s.width := BitVec.ofInt s.width ((p.a.toNat : Int) - p.b.toNat)
      v.lt = d.getLsbD (s.width - 1) ∧ v.eq = decide (d.toNat = 0) ∧ v.eq = decide (p.a = p.b) ∧
      v.eq = ((List.range s.width).all fun i => !d.getLsbD i) ∧ v.gt = (!v.lt && !v.eq)

/-- R122, R123, at every evaluation (R24), whatever `op` holds: `lt` is the signed less-than but for signed overflow of the
subtraction, and without overflow `lt` and `gt` are the signed comparisons. -/
def Obligations.SignedComparison : Prop :=
  ∀ s : State, s.factory.wellBuilt = true → s.InputsOk → s.illegal = none →
    ∃ t o, step s = .next t ∧ t.outputs = some o ∧ ∀ ρ,
    let p := s.ports ρ
    let v := o.values s.width t.factory ρ
    let x : Int := p.a.toInt - p.b.toInt
    let overflow : Bool := !decide (-(2 : Int) ^ (s.width - 1) ≤ x ∧ x < (2 : Int) ^ (s.width - 1))
    v.lt = (p.a - p.b).getLsbD (s.width - 1) ∧ v.lt = (decide (p.a.toInt < p.b.toInt) ^^ overflow) ∧ v.gt = (!v.lt && !v.eq) ∧
    (overflow = false → v.lt = decide (p.a.toInt < p.b.toInt) ∧ v.gt = decide (p.b.toInt < p.a.toInt))

/-- R127: after CMP or SUB the unsigned comparisons are read from `cout` and `eq`. -/
def Obligations.UnsignedComparison : Prop :=
  ∀ (s : State) (i : Instr), i = .cmp ∨ i = .sub → s.factory.wellBuilt = true → s.InputsOk → s.Completes i fun p v =>
    v.cout = decide (p.b.toNat ≤ p.a.toNat) ∧ (!v.cout) = decide (p.a.toNat < p.b.toNat) ∧
    (v.cout && !v.eq) = decide (p.b.toNat < p.a.toNat)

/-- R128: exactly one of the flags is 1 after every step that gives a next state, from any state of the invariant. -/
def Obligations.ExactlyOneFlag : Prop :=
  ∀ s t : State, s.inv = true → step s = .next t → ∃ o, t.outputs = some o ∧ ∀ ρ,
    let v := o.values t.width t.factory ρ
    v.lt.toNat + v.eq.toNat + v.gt.toNat = 1

/-- R129, R152: the instance of width 1. That an evaluation of CMP raises the counters by the comparator's cost of R129 and
nothing else is the model's reading (log entry 9). -/
def Obligations.WidthOne : Prop :=
  ∀ s : State, s.width = 1 → s.factory.wellBuilt = true → s.InputsOk →
    (∀ i : Instr, s.Completes i fun p v =>
      v.lt = (p.a.getLsbD 0 ^^ p.b.getLsbD 0) ∧ v.eq = !(p.a.getLsbD 0 ^^ p.b.getLsbD 0) ∧ v.gt = false) ∧
    (∀ i ∈ [Instr.shl, .shr], s.Completes i fun p v => v.r = 0 ∧ v.cout = p.a.getLsbD 0) ∧
    (∀ i ∈ [Instr.sar, .rol, .ror], s.Completes i fun p v => v.r = p.a ∧ v.cout = p.a.getLsbD 0) ∧
    (∀ i ∈ [Instr.rcl, .rcr], s.Completes i fun p v => v.r.getLsbD 0 = p.cin ∧ v.cout = p.a.getLsbD 0) ∧
    ∃ t, exec .cmp s = .next t ∧ t.counters = (s.factory.andCount + 3, s.factory.xorCount + 7)

/-! ### Laws of the operations -/

/-- R107: where the exact signed result of ADD or SUB is in range it is the result read as signed, and where the exact
unsigned one is in range it is the result read as unsigned; `cout` is the unsigned carry or not-borrow. -/
def Obligations.AddSubBothReadings : Prop :=
  ∀ s : State, s.factory.wellBuilt = true → s.InputsOk →
    (s.Completes .add fun p v =>
      (-(2 : Int) ^ (s.width - 1) ≤ p.a.toInt + p.b.toInt → p.a.toInt + p.b.toInt < (2 : Int) ^ (s.width - 1) →
        v.r.toInt = p.a.toInt + p.b.toInt) ∧
      (p.a.toNat + p.b.toNat < 2 ^ s.width → v.r.toNat = p.a.toNat + p.b.toNat) ∧
      v.cout = decide (2 ^ s.width ≤ p.a.toNat + p.b.toNat)) ∧
    (s.Completes .sub fun p v =>
      (-(2 : Int) ^ (s.width - 1) ≤ p.a.toInt - p.b.toInt → p.a.toInt - p.b.toInt < (2 : Int) ^ (s.width - 1) →
        v.r.toInt = p.a.toInt - p.b.toInt) ∧
      (p.b.toNat ≤ p.a.toNat → v.r.toNat = p.a.toNat - p.b.toNat) ∧
      v.cout = decide (p.b.toNat ≤ p.a.toNat))

/-- R157, R174: the right rotation undoes the left one in `r`: the `r` of the first evaluation, driven on `a` of the next,
comes back as the first `a`. -/
def Obligations.RightRotationUndoesLeft : Prop :=
  ∀ (s : State) (left right : Instr), (left, right) = (.rol, .ror) ∨ (left, right) = (.brol, .bror) →
    s.factory.wellBuilt = true → s.InputsOk →
    ∃ o f o' f', exec left s = .next { s with factory := f, outputs := some o } ∧
      (let s' : State := { s with factory := f, outputs := some o, inputs := { s.inputs with a := .word o.r } }
       exec right s' = .next { s' with factory := f', outputs := some o' }) ∧
      ∀ ρ, (o'.values s.width f' ρ).r = (s.ports ρ).a

/-- R177: by one place the barrel forms give the `r` of the one-position forms; on `cout` they give 0, where those give the
leaving bit. -/
def Obligations.BarrelByOne : Prop :=
  ∀ (s : State) (one barrel : Instr),
    (one, barrel) ∈ [(Instr.shl, Instr.bshl), (.shr, .bshr), (.sar, .bsar), (.rol, .brol), (.ror, .bror)] →
    s.factory.wellBuilt = true → s.InputsOk →
    ∃ o f o' f', exec one s = .next { s with factory := f, outputs := some o } ∧
      exec barrel s = .next { s with factory := f', outputs := some o' } ∧
      ∀ ρ, (s.ports ρ).b.toNat = 1 →
        (o'.values s.width f' ρ).r = (o.values s.width f ρ).r ∧ (o'.values s.width f' ρ).cout = false ∧
        (o.values s.width f ρ).cout =
          if one = .shl ∨ one = .rol then (s.ports ρ).a.getLsbD (s.width - 1) else (s.ports ρ).a.getLsbD 0

/-- R22: a port an operation does not read has no effect on its `r`, `cout` and `ill`, and `ctrl` and `cin` have none on a
flag. `b` is read by the two-word operations, `ctrl` by SEL, `cin` by RCL and RCR. -/
def Obligations.UnreadPorts : Prop :=
  ∀ (i : Instr) (s : State) (inputs : Inputs), s.factory.wellBuilt = true → s.InputsOk →
    State.InputsOk { s with inputs := inputs } →
    ∃ o f o' f', exec i s = .next { s with factory := f, outputs := some o } ∧
      exec i { s with inputs := inputs } = .next { s with inputs := inputs, factory := f', outputs := some o' } ∧
      ∀ ρ, let p := s.ports ρ
        let q := State.ports { s with inputs := inputs } ρ
        let v := o.values s.width f ρ
        let w := o'.values s.width f' ρ
        p.a = q.a → (lineTakesY i = true → p.b = q.b) → (i = .sel → p.ctrl = q.ctrl) →
        (i = .rcl ∨ i = .rcr → p.cin = q.cin) →
        (w.r = v.r ∧ w.cout = v.cout ∧ w.ill = v.ill) ∧ (p.b = q.b → w.lt = v.lt ∧ w.eq = v.eq ∧ w.gt = v.gt)

/-! ### The whole block -/

/-- R67, R69, with R3: every step whose inputs are not refused drives the output function of R67 on its input ports, the
code on `op` constant or symbolic, assigned or reserved, and keeps width, inputs and realization, and every node and count
the factory had. The netlist refines the functional
semantics of the operation rules (R4). -/
def Obligations.StepDrivesOutputFunction : Prop :=
  ∀ s : State, s.factory.wellBuilt = true → s.InputsOk → s.illegal = none →
    ∃ t, s.StepsTo t (fun ρ => Functional.outputs (s.ports ρ)) ∧ s.Kept t

/-- R3, R4: two instances of one width, of whatever realization, counters, graph and history, whose input ports hold the
same values under assignments of their own, drive the same values. With one Concrete and the other Circuit this is the
dual-mode equivalence. -/
def Obligations.OutputsDependOnPortsOnly : Prop :=
  ∀ (s : State) (f : Factory) (inputs : Inputs) (outputs : Option Outputs) (xs : List IllegalRecord) (k : Nat)
      (ρ ρ' : Assignment),
    let s' : State := { s with factory := f, inputs := inputs, outputs := outputs, illegalIf := xs, freeIndex := k }
    s.factory.wellBuilt = true → s.InputsOk → f.wellBuilt = true → s'.InputsOk → s.illegal = none →
    s'.ports ρ' = s.ports ρ →
    ∃ t o t' o', step s = .next t ∧ t.outputs = some o ∧ step s' = .next t' ∧ t'.outputs = some o' ∧
      o'.values s.width t'.factory ρ' = o.values s.width t.factory ρ

/-- R43: evaluating the same inputs again, after a step that recorded no fault, gives the same values. -/
def Obligations.SameInputsSameOutputs : Prop :=
  ∀ s t : State, s.factory.wellBuilt = true → step s = .next t → t.illegal = none →
    ∃ o t' o', t.outputs = some o ∧ step t = .next t' ∧ t'.outputs = some o' ∧
      ∀ ρ, o'.values s.width t'.factory ρ = o.values s.width t.factory ρ

/-- R8, R30, R32: a step keeps width, realization and inputs, lowers no counter, and only adds nodes to the graph; an
earlier bit keeps its value; and no record of a fault is ever cleared (log entry 3). A constant code adds no record for an assignment and takes no free
value (log entries 3 and 6). -/
def Obligations.StepFrame : Prop :=
  ∀ s t : State, s.factory.wellBuilt = true → step s = .next t →
    s.Kept t ∧ (∀ (ρ : Assignment) (x : Bit), s.factory.ownsBit x = true → t.factory.bitValue ρ x = s.factory.bitValue ρ x) ∧
    s.illegal = none ∧ (∀ c, t.illegal = some c → s.opCode = some c ∧ c ∈ reservedCodes) ∧
    s.illegalIf <+: t.illegalIf ∧ (s.opCode.isSome = true → t.illegalIf = s.illegalIf ∧ t.freeIndex = s.freeIndex)

/-- The invariant holds of every instance at its creation, the reset state (log entry 1) among them. -/
def Obligations.InvAtCreation : Prop :=
  State.reset.inv = true ∧ ∀ (W : Nat) (h : 1 ≤ W) (r : Realization) (u : Bool), (State.create W h r u).inv = true

/-- Every step keeps the invariant: the graph stays acyclic (R32), and empty in the Concrete realization, every output
word has the width of the instance and belongs to its factory (R27, R28), a recorded fault names a reserved code and
stands beside the outputs of R181, and the records for assignments belong to the factory (log entry 3). -/
def Obligations.StepKeepsInv : Prop :=
  ∀ s t : State, s.inv = true → step s = .next t → t.inv = true

/-- R201: creation leaves both counters 0 and the graph empty, and fixes realization and width; the reset state is a creation,
with the parameters of log entry 1. -/
def Obligations.Creation : Prop :=
  ∀ (W : Nat) (h : 1 ≤ W) (r : Realization) (u : Bool),
    (State.create W h r u).counters = (0, 0) ∧ (State.create W h r u).factory.graph = [] ∧
    (State.create W h r u).factory.realization = r ∧ (State.create W h r u).width = W ∧
    State.reset = State.create State.reset.width State.reset.width_pos State.reset.factory.realization
      State.reset.factory.reuseNodes

/-! ### IllegalOp and refusals -/

/-- R66, R181: an evaluation with a reserved code on `op` completes with `ill` 1, `r` zero, `cout` 0 and the flags of
`compare(a, b)`; the model records the code, changes nothing else but the factory's cells, and stops at the next step. That the record is a
field and the stop comes at the next step is the model's reading (log entry 3). -/
def Obligations.IllegalOpTaken : Prop :=
  ∀ (s : State) (c : BitVec 5), s.factory.wellBuilt = true → s.InputsOk → s.illegal = none →
    s.opCode = some c → c ∈ reservedCodes →
    ∃ o f, step s = .next { s with factory := f, outputs := some o, illegal := some c } ∧ s.factory.Extends f ∧
      o.fits s.width f = true ∧ step { s with factory := f, outputs := some o, illegal := some c } = .fault (.illegalOp c) ∧
      ∀ ρ, let p := s.ports ρ
        let v := o.values s.width f ρ
        v.ill = true ∧ v.r = 0 ∧ v.cout = false ∧ v.lt = (p.a - p.b).getLsbD (s.width - 1) ∧
        v.eq = decide (p.a = p.b) ∧ v.gt = (!v.lt && !v.eq)

/-- The machine stops with a fault exactly where an earlier step recorded one, and with the code it recorded
(R181: the fault is final for the run; the form of the stop is log entry 3). -/
def Obligations.FaultsExactly : Prop :=
  ∀ (s : State) (e : Fault), step s = .fault e ↔ ∃ c, s.illegal = some c ∧ e = .illegalOp c

/-- R182, R184, R185: the errors of use, each refused by its name, in the order of R182's list, whatever else holds. That
`op`, `ctrl` and `cin` are checked too, against 5 and 1 bits, is log entry 11, that a read-out asked for is part of the
evaluation is log entry 16, and that a node not made before the evaluation is a cycle is log entry 5. -/
def Obligations.ErrorsOfUseRefused : Prop :=
  ∀ s : State, s.illegal = none →
    let literal := ∃ d ∈ s.drives, ∃ k : Int, d.2 = .literal k ∧ ¬ (0 ≤ k ∧ k < 2 ^ d.1)
    let width := ∃ d ∈ s.drives, (∃ w : Word, d.2 = .word w ∧ w.length ≠ d.1) ∨
      (∃ p : OutPort, d.2 = .output p ∧ (if p = .r then s.width else 1) ≠ d.1) ∨ ∃ n p, d.2 = .throughLogic n p ∧ n ≠ d.1
    let realization := ∃ d ∈ s.drives, ∃ w : Word, d.2 = .word w ∧ ∃ x ∈ w,
      (s.factory.realization = .concrete ∧ ∃ n, x = .symbolic n) ∨
      (s.factory.realization = .circuit ∧ ∃ b, x = .concrete b)
    let extract := s.inputs.readOut.isSome = true ∧ s.factory.realization = .circuit
    let cycle := ∃ d ∈ s.drives, (∃ p : OutPort, d.2 = .output p ∨ ∃ n, d.2 = .throughLogic n p) ∨
      ∃ w : Word, d.2 = .word w ∧ ∃ n, Bit.symbolic n ∈ w ∧ s.factory.graph.length ≤ n
    (literal → step s = .refused .literalOutOfRange) ∧
    (¬ literal → width → step s = .refused .widthMismatch) ∧
    (¬ literal → ¬ width → realization → step s = .refused .realizationMismatch) ∧
    (¬ literal → ¬ width → ¬ realization → extract → step s = .refused .symbolicExtract) ∧
    (¬ literal → ¬ width → ¬ realization → ¬ extract → cycle → step s = .refused .combinationalCycle)

/-- R81 and R203: INPUT cells on the Concrete realization and an undriven port are refused where no error of R182 stands
before them, and with neither the step completes. The order of these two is the model's (log entry 4). -/
def Obligations.OtherInputsRefused : Prop :=
  ∀ s : State, s.illegal = none →
    (∀ r ∈ [Refusal.literalOutOfRange, .widthMismatch, .realizationMismatch, .symbolicExtract, .combinationalCycle],
      s.inputError ≠ some r) →
    let input := s.factory.realization = .concrete ∧ ∃ d ∈ s.drives, ∃ l, d.2 = .inputs l
    let undriven := ∃ d ∈ s.drives, d.2 = .undriven
    (input → step s = .refused .inputOnConcrete) ∧
    (¬ input → undriven → step s = .refused .undrivenPort) ∧
    (¬ input → ¬ undriven → s.factory.wellBuilt = true → ∃ t, step s = .next t)

/-- R184, R185: from a well-built factory with no fault recorded a step is refused exactly where the check of the inputs
finds an error, by that name, and otherwise gives a next state: no cell inside an evaluation refuses. -/
def Obligations.RefusedExactlyByInputs : Prop :=
  ∀ s : State, s.factory.wellBuilt = true → s.illegal = none →
    (∀ r, step s = .refused r ↔ s.inputError = some r) ∧ ((∃ t, step s = .next t) ↔ s.InputsOk) ∧
    ∀ i r, exec i s = .refused r ↔ s.inputError = some r

/-- R15, R183: the read-out of an output port is `uval` of it in the Concrete realization, but for an evaluation with a
reserved code, which completes and makes no read-out, since no output of it may be used (R181, log entry 3); and no
evaluation, with whatever on `op`, reads out a port of the Circuit realization or one that was not asked for. That the
request is part of the evaluation, and refuses it in the Circuit realization, is log entry 16. -/
def Obligations.ReadOut : Prop :=
  (∀ (s : State) (i : Instr) (port : OutPort), s.factory.wellBuilt = true → s.InputsOk → s.inputs.readOut = some port →
    ∃ o f, exec i s = .next { s with factory := f, outputs := some o } ∧ f.realization = .concrete ∧
      ∀ ρ, o.reading = some (f.wordValue ρ (o.port port))) ∧
  (∀ (s : State) (port : OutPort), s.factory.wellBuilt = true → s.InputsOk → s.illegal = none →
    s.inputs.readOut = some port →
    s.factory.realization = .concrete ∧ ∃ c t o, s.opCode = some c ∧ step s = .next t ∧ t.outputs = some o ∧
      (c ∉ reservedCodes → ∀ ρ, o.reading = some (t.factory.wordValue ρ (o.port port))) ∧
      (c ∈ reservedCodes → o.reading = none)) ∧
  (∀ (s t : State) (i : Instr), exec i s = .next t → s.factory.realization = .circuit → s.inputs.readOut = none) ∧
  (∀ s t : State, step s = .next t → s.factory.realization = .circuit → s.inputs.readOut = none) ∧
  ∀ s t : State, s.factory.wellBuilt = true → step s = .next t → s.inputs.readOut = none →
    ∃ o, t.outputs = some o ∧ o.reading = none

/-! ### Cost -/

/-- The counters after one evaluation, for every operation (R212; that the comparator is counted once beside the operation
and shared with SUB and CMP is log entry 9). They do not depend on any operand (R142, R178). -/
def Obligations.EvaluationCost : Prop :=
  ∀ (s : State) (i : Instr), s.factory.wellBuilt = true → s.InputsOk →
    ∃ t, exec i s = .next t ∧
      let W := s.width
      let cost : Nat × Nat := match i with
        | .add => (3 * W + (2 * W - 1), 5 * W + 2 + (3 * W - 2))
        | .sub | .cmp => (3 * W, 5 * W + 2)
        | .sel => (3 * W + W, 5 * W + 2 + 2 * W)
        | .shl | .shr | .sar | .rol | .ror | .rcl | .rcr => (3 * W, 5 * W + 2)
        | .bshl | .bshr | .bsar | .brol | .bror => (3 * W + W * W, 5 * W + 2 + 2 * W * W)
      t.counters = (s.factory.andCount + cost.1, s.factory.xorCount + cost.2)

/-- After an evaluation with a symbolic `op` the counters are higher by free values, whatever they are (R69 fixes no
number; log entry 6), and the next such evaluation takes the next free values. -/
def Obligations.SymbolicOpCounts : Prop :=
  ∀ s t : State, s.illegal = none → s.opCode = none → step s = .next t →
    t.counters = (s.factory.andCount + Config.freeAndCount s.freeIndex, s.factory.xorCount + Config.freeXorCount s.freeIndex) ∧
    t.freeIndex = s.freeIndex + 1

/-! ### The cells and the constructions -/

/-- R80, R82, R83: CONST, AND and XOR, their value, their cost, and their node in the Circuit realization. -/
def Obligations.PrimitiveCells : Prop :=
  ∀ f : Factory, f.wellBuilt = true →
    (∀ v, ∃ z f', constCell v f = .ok (z, f') ∧ f.Calls f' 0 0 ∧ f'.ownsBit z = true ∧ (∀ ρ, f'.bitValue ρ z = v) ∧
      (f.realization = .circuit → ∃ n, z = .symbolic n ∧ f'.graph[n]? = some (.constant v))) ∧
    ∀ x y, f.ownsBit x = true → f.ownsBit y = true →
      (∃ z f', andCell x y f = .ok (z, f') ∧ f.Calls f' 1 0 ∧ f'.ownsBit z = true ∧
        (∀ ρ, f'.bitValue ρ z = (f.bitValue ρ x && f.bitValue ρ y)) ∧
        (f.realization = .circuit →
          ∃ l m n, x = .symbolic l ∧ y = .symbolic m ∧ z = .symbolic n ∧ f'.graph[n]? = some (.and l m))) ∧
      (∃ z f', xorCell x y f = .ok (z, f') ∧ f.Calls f' 0 1 ∧ f'.ownsBit z = true ∧
        (∀ ρ, f'.bitValue ρ z = (f.bitValue ρ x ^^ f.bitValue ρ y)) ∧
        (f.realization = .circuit →
          ∃ l m n, x = .symbolic l ∧ y = .symbolic m ∧ z = .symbolic n ∧ f'.graph[n]? = some (.xor l m)))

/-- R81: INPUT gives a fresh node whose value is the one assigned to its name, counts nothing, and is refused on the
Concrete realization. -/
def Obligations.InputCell : Prop :=
  ∀ (f : Factory) (name : InputName), f.wellBuilt = true →
    (f.realization = .concrete → inputCell name f = .error .inputOnConcrete) ∧
    (f.realization = .circuit → ∃ f', inputCell name f = .ok (.symbolic f.graph.length, f') ∧ f.Calls f' 0 0 ∧
      f'.graph = f.graph ++ [.input name] ∧ ∀ ρ, f'.bitValue ρ (.symbolic f.graph.length) = ρ name)

/-- R84 to R88: NOT, MUX, OR and the half and full adder, their values and costs. -/
def Obligations.DerivedCells : Prop :=
  ∀ (f : Factory) (x y c : Bit), f.wellBuilt = true → f.ownsBit x = true → f.ownsBit y = true → f.ownsBit c = true →
    (∃ z f', notCell x f = .ok (z, f') ∧ f.Calls f' 0 1 ∧ f'.ownsBit z = true ∧
      ∀ ρ, f'.bitValue ρ z = !f.bitValue ρ x) ∧
    (∃ z f', muxCell c x y f = .ok (z, f') ∧ f.Calls f' 1 2 ∧ f'.ownsBit z = true ∧
      ∀ ρ, f'.bitValue ρ z = if f.bitValue ρ c then f.bitValue ρ x else f.bitValue ρ y) ∧
    (∃ z f', orCell x y f = .ok (z, f') ∧ f.Calls f' 1 2 ∧ f'.ownsBit z = true ∧
      ∀ ρ, f'.bitValue ρ z = (f.bitValue ρ x || f.bitValue ρ y)) ∧
    (∃ z co f', halfAdder x y f = .ok ((z, co), f') ∧ f.Calls f' 1 1 ∧ f'.ownsBit z = true ∧ f'.ownsBit co = true ∧
      ∀ ρ, (f'.bitValue ρ z).toNat + 2 * (f'.bitValue ρ co).toNat = (f.bitValue ρ x).toNat + (f.bitValue ρ y).toNat) ∧
    (∃ z co f', fullAdder x y c f = .ok ((z, co), f') ∧ f.Calls f' 2 3 ∧ f'.ownsBit z = true ∧ f'.ownsBit co = true ∧
      ∀ ρ, (f'.bitValue ρ z).toNat + 2 * (f'.bitValue ρ co).toNat =
        (f.bitValue ρ x).toNat + (f.bitValue ρ y).toNat + (f.bitValue ρ c).toNat)

/-- R90, R91: NOT and MUX of a word. -/
def Obligations.WordCells : Prop :=
  ∀ (f : Factory) (x y : Word) (c : Bit), f.wellBuilt = true → x.all f.ownsBit = true → y.all f.ownsBit = true →
    f.ownsBit c = true → x.length = y.length →
    (∃ z f', notWord x f = .ok (z, f') ∧ f.Calls f' 0 x.length ∧ z.all f'.ownsBit = true ∧
      ∀ ρ, f'.wordBits ρ z = (f.wordBits ρ x).map fun b => !b) ∧
    ∃ z f', muxWord c x y f = .ok (z, f') ∧ f.Calls f' x.length (2 * x.length) ∧ z.all f'.ownsBit = true ∧
      ∀ ρ, f'.wordBits ρ z = if f.bitValue ρ c then f.wordBits ρ x else f.wordBits ρ y

/-- R102, R106: the constructions of ADD and SUB compute their functions at every width, at the costs of R101 and R105. -/
def Obligations.AddSubConstructions : Prop :=
  ∀ (f : Factory) (a b : Word), f.wellBuilt = true → a.all f.ownsBit = true → b.all f.ownsBit = true →
    a.length = b.length → 1 ≤ a.length →
    (∃ r co f', addNet a b f = .ok ((r, co), f') ∧ f.Calls f' (2 * a.length - 1) (3 * a.length - 2) ∧
      r.length = a.length ∧ r.all f'.ownsBit = true ∧ f'.ownsBit co = true ∧ ∀ ρ,
        f'.wordValue ρ r + 2 ^ a.length * (f'.bitValue ρ co).toNat = f.wordValue ρ a + f.wordValue ρ b) ∧
    ∃ r co f', subNet a b f = .ok ((r, co), f') ∧ f.Calls f' (2 * a.length) (4 * a.length) ∧
      r.length = a.length ∧ r.all f'.ownsBit = true ∧ f'.ownsBit co = true ∧ ∀ ρ,
        f'.wordValue ρ r + 2 ^ a.length * (f'.bitValue ρ co).toNat + f.wordValue ρ b = f.wordValue ρ a + 2 ^ a.length

/-- R126: the comparator's construction computes R120 to R123 at every width, with its subtractor at the cost of R125. -/
def Obligations.CompareConstruction : Prop :=
  ∀ (f : Factory) (a b : Word), f.wellBuilt = true → a.all f.ownsBit = true → b.all f.ownsBit = true →
    a.length = b.length → 1 ≤ a.length →
    ∃ d nb f' g f'', subNet a b f = .ok ((d, nb), f') ∧ compareFlags d f' = .ok (g, f'') ∧
      f'.Calls f'' a.length (a.length + 2) ∧ f.Calls f'' (3 * a.length) (5 * a.length + 2) ∧ ∀ ρ,
        let dv : BitVec a.length := BitVec.ofInt a.length ((f.wordValue ρ a : Int) - f.wordValue ρ b)
        f''.wordValue ρ d = dv.toNat ∧ f''.bitValue ρ g.lt = dv.getLsbD (a.length - 1) ∧
        f''.bitValue ρ g.eq = decide (dv = 0) ∧ f''.bitValue ρ g.gt = (!f''.bitValue ρ g.lt && !f''.bitValue ρ g.eq)

/-- R176: the cascade of `W` stages computes the barrel rules at every width, at the cost of R175, the same for every
amount. -/
def Obligations.BarrelConstruction : Prop :=
  ∀ (f : Factory) (a b : Word) (W : Nat), f.wellBuilt = true → a.all f.ownsBit = true → b.all f.ownsBit = true →
    a.length = W → b.length = W → 1 ≤ W →
    let Computes : (Nat → Word → Build Word) → (BitVec W → BitVec W → BitVec W) → Prop := fun stage rule =>
      ∃ r f', barrel stage 0 b a f = .ok (r, f') ∧ f.Calls f' (W * W) (2 * W * W) ∧ r.length = W ∧
        r.all f'.ownsBit = true ∧
        ∀ ρ, wordOf W (f'.wordBits ρ r) = rule (wordOf W (f.wordBits ρ a)) (wordOf W (f.wordBits ρ b))
    Computes stageBshl (fun x n => BitVec.ofNat W (x.toNat * 2 ^ n.toNat)) ∧
    Computes stageBshr (fun x n => BitVec.ofNat W (x.toNat / 2 ^ n.toNat)) ∧
    Computes stageBsar (fun x n => BitVec.ofInt W (x.toInt / 2 ^ n.toNat)) ∧
    Computes stageBrol Functional.brol ∧ Computes stageBror Functional.bror

/-- R70: a constant word has the bits of its number, one CONST cell each in the Circuit realization, counts nothing, and is
refused outside the range. -/
def Obligations.FromConstant : Prop :=
  ∀ (f : Factory) (W : Nat) (k : Int), f.wellBuilt = true →
    (0 ≤ k → k < 2 ^ W → ∃ w f', fromConstant W k f = .ok (w, f') ∧ f.Calls f' 0 0 ∧ w.length = W ∧
      (∀ ρ, f'.wordBits ρ w = (List.range W).map fun i => k.toNat.testBit i) ∧ (∀ ρ, (f'.wordValue ρ w : Int) = k) ∧
      (f.realization = .circuit → ∀ x ∈ w, ∃ n v, x = .symbolic n ∧ f'.graph[n]? = some (.constant v))) ∧
    (¬ (0 ≤ k ∧ k < 2 ^ W) → fromConstant W k f = .error .literalOutOfRange)

/-! ### The harness -/

/-- R72, R206: a line evaluates the block on the values the harness held before it: `op` is the mnemonic's code, `a` is `x`,
`b` is `y` or 0 where there is none, and the bit source stands on `ctrl` in a SEL and on `cin` in an RCL or RCR, each 0
elsewhere; that it stands on no other port is the model's reading of R72 and of the traces (log entry 14). Then it holds the evaluation's `r` in the destination and its `cout`, `lt`, `eq`, `gt` in the four
bits, and every other word as before. -/
def Obligations.LineWritesBack : Prop :=
  ∀ (h : Harness) (l : Line), l.wf h.wdp.width = true → h.wdp.factory.wellBuilt = true → h.wdp.illegal = none →
    State.InputsOk { h.wdp with inputs := h.drive l } →
    ∃ h', h.runLine l = .next h' ∧
      (∀ j, l.dest ≠ some j → h'.words.getD j .undriven = h.words.getD j .undriven) ∧
      ∀ ρ, let W := h.wdp.width
        let g := h.wdp.factory
        let source : WordSrc → BitVec W := fun x => match x with
          | .reg i => wordOf W ((h.words.getD i .undriven).bits g ρ W)
          | .const k => BitVec.ofNat W k
          | .negConst k => BitVec.ofInt W (-(k : Int))
        let bit : Option BitSrc → Bool := fun x => match x with
          | none => false
          | some .zero => false
          | some .one => true
          | some .c => h.c.bit g ρ 1
          | some .lt => h.lt.bit g ρ 1
          | some .eq => h.eq.bit g ρ 1
          | some .gt => h.gt.bit g ρ 1
        let p : Functional.Ports W :=
          { op := encode l.instr
            a := source l.x
            b := match l.y with
              | some y => source y
              | none => 0
            ctrl := if l.instr = .sel then bit l.c else false
            cin := if l.instr = .rcl ∨ l.instr = .rcr then bit l.c else false }
        let v := Functional.instrOutputs l.instr p
        let f := h'.wdp.factory
        State.ports { h.wdp with inputs := h.drive l } ρ = p ∧
        (∀ d, l.dest = some d → wordOf W ((h'.words.getD d .undriven).bits f ρ W) = v.r) ∧
        h'.c.bit f ρ 1 = v.cout ∧ h'.lt.bit f ρ 1 = v.lt ∧ h'.eq.bit f ρ 1 = v.eq ∧ h'.gt.bit f ρ 1 = v.gt

/-- R73: the effect of each pseudo-instruction, where `x` is the value of its source before the line. -/
def Obligations.PseudoEffects : Prop :=
  ∀ (h : Harness) (q : Pseudo), h.wdp.factory.wellBuilt = true → h.wdp.illegal = none →
    (q.expand h.wdp.width).wf h.wdp.width = true → State.InputsOk { h.wdp with inputs := h.drive (q.expand h.wdp.width) } →
    ∃ h', h.runLine (q.expand h.wdp.width) = .next h' ∧ ∀ ρ,
      let W := h.wdp.width
      let before : WordSrc → BitVec W := fun x => wordOf W ((h.word W x).bits h.wdp.factory ρ W)
      let after : Nat → BitVec W := fun d => wordOf W ((h'.words.getD d .undriven).bits h'.wdp.factory ρ W)
      match q with
      | .mov d x => after d = before x
      | .clr d => after d = 0
      | .neg d x => after d = BitVec.ofInt W (-((before x).toNat : Int))
      | .inc d x => after d = BitVec.ofNat W ((before x).toNat + 1)
      | .dec d x => after d = BitVec.ofInt W (((before x).toNat : Int) - 1)
      | .notw d x => after d = ~~~(before x)
      | .tst x => h'.lt.bit h'.wdp.factory ρ 1 = (before x).getLsbD (W - 1) ∧
          h'.eq.bit h'.wdp.factory ρ 1 = decide ((before x).toNat = 0)

/-! ### IllegalOp under an assignment -/

/-- R66, R69, R181 for an `op` that is not constant: the evaluation completes, and under each assignment that puts a
reserved code on `op` it drives `ill` 1, `r` zero and `cout` 0, none of its outputs may be used, the fault is recorded with
that code unless one is recorded there already, and the run of that assignment stops at its next step; under every other
assignment what is recorded is unchanged. The form of the record and of the stop is log entry 3. -/
def Obligations.SymbolicIllegalOp : Prop :=
  ∀ s : State, s.inv = true → s.InputsOk → s.illegal = none → s.opCode = none →
    ∃ t o, step s = .next t ∧ t.outputs = some o ∧ t.illegal = none ∧ ∀ ρ,
      let c := (s.ports ρ).op
      let v := o.values s.width t.factory ρ
      (v.ill = decide (c ∈ reservedCodes)) ∧
      (c ∈ reservedCodes → v.r = 0 ∧ v.cout = false ∧ t.outputsUnder ρ = none ∧
        t.illegalUnder ρ = some ((s.illegalUnder ρ).getD c) ∧
        stepUnder ρ t = .fault (.illegalOp ((s.illegalUnder ρ).getD c))) ∧
      (c ∉ reservedCodes → t.illegalUnder ρ = s.illegalUnder ρ)

/-- R181: once IllegalOp is recorded under an assignment it is final for that run: its next step is the fault, and every step
of the machine keeps the record with its code and leaves no output that may be used there (log entry 3). With nothing
recorded, a step of the run is a step of the machine. -/
def Obligations.IllegalIsFinal : Prop :=
  ∀ (s : State) (ρ : Assignment), s.inv = true →
    (∀ c, s.illegalUnder ρ = some c → stepUnder ρ s = .fault (.illegalOp c) ∧ s.outputsUnder ρ = none ∧
      ∀ t, step s = .next t → t.illegalUnder ρ = some c ∧ t.outputsUnder ρ = none) ∧
    (s.illegalUnder ρ = none → stepUnder ρ s = step s ∧
      ∀ t, step s = .next t →
        t.illegalUnder ρ = if (s.ports ρ).op ∈ reservedCodes then some (s.ports ρ).op else none)

end
end

