-- ==== Sys2Proof/Laws/State.lean ====
section
/-! SUPPORT. The fields of State after each of its updates. -/

namespace Sys2Proof.Machine

@[simp] theorem withFetchWord_op (s : State) (n w : Nat) : (s.withFetchWord n w).inputs.op = .literal w := rfl
@[simp] theorem withFetchWord_a (s : State) (n w : Nat) : (s.withFetchWord n w).inputs.a = s.inputs.a.orZero := rfl
@[simp] theorem withFetchWord_b (s : State) (n w : Nat) : (s.withFetchWord n w).inputs.b = s.inputs.b.orZero := rfl
@[simp] theorem withFetchWord_ctrl (s : State) (n w : Nat) :
    (s.withFetchWord n w).inputs.ctrl = s.inputs.ctrl.orZero := rfl
@[simp] theorem withFetchWord_cin (s : State) (n w : Nat) : (s.withFetchWord n w).inputs.cin = s.inputs.cin.orZero := rfl
@[simp] theorem withFetchWord_readOut (s : State) (n w : Nat) :
    (s.withFetchWord n w).inputs.readOut = s.inputs.readOut := rfl
@[simp] theorem withFetchWord_outputLabel (s : State) (n w : Nat) :
    (s.withFetchWord n w).inputs.outputLabel = s.inputs.outputLabel := rfl
@[simp] theorem withFetchWord_width (s : State) (n w : Nat) : (s.withFetchWord n w).width = s.width := rfl
@[simp] theorem withFetchWord_factory (s : State) (n w : Nat) : (s.withFetchWord n w).factory = s.factory := rfl
@[simp] theorem withFetchWord_outputs (s : State) (n w : Nat) : (s.withFetchWord n w).outputs = s.outputs := rfl
@[simp] theorem withFetchWord_illegal (s : State) (n w : Nat) : (s.withFetchWord n w).illegal = s.illegal := rfl
@[simp] theorem withFetchWord_illegalIf (s : State) (n w : Nat) : (s.withFetchWord n w).illegalIf = s.illegalIf := rfl
@[simp] theorem withFetchWord_freeIndex (s : State) (n w : Nat) : (s.withFetchWord n w).freeIndex = s.freeIndex := rfl

@[simp] theorem create_factory (W : Nat) (h : 1 ≤ W) (r : Realization) (u : Bool) :
    (State.create W h r u).factory = Factory.create r u := rfl
@[simp] theorem create_width (W : Nat) (h : 1 ≤ W) (r : Realization) (u : Bool) : (State.create W h r u).width = W := rfl
@[simp] theorem create_inputs (W : Nat) (h : 1 ≤ W) (r : Realization) (u : Bool) :
    (State.create W h r u).inputs = Inputs.none := rfl
@[simp] theorem create_outputs (W : Nat) (h : 1 ≤ W) (r : Realization) (u : Bool) :
    (State.create W h r u).outputs = none := rfl
@[simp] theorem create_illegal (W : Nat) (h : 1 ≤ W) (r : Realization) (u : Bool) :
    (State.create W h r u).illegal = none := rfl
@[simp] theorem create_illegalIf (W : Nat) (h : 1 ≤ W) (r : Realization) (u : Bool) :
    (State.create W h r u).illegalIf = [] := rfl
@[simp] theorem create_freeIndex (W : Nat) (h : 1 ≤ W) (r : Realization) (u : Bool) :
    (State.create W h r u).freeIndex = 0 := rfl

@[simp] theorem freeCounts_graph (s : State) (f : Factory) : (s.freeCounts f).graph = f.graph := rfl
@[simp] theorem freeCounts_realization (s : State) (f : Factory) : (s.freeCounts f).realization = f.realization := rfl
@[simp] theorem freeCounts_reuseNodes (s : State) (f : Factory) : (s.freeCounts f).reuseNodes = f.reuseNodes := rfl

end Sys2Proof.Machine
end

