-- ==== Sys2Proof/Laws/Graph.lean ====
section
/-! SUPPORT. The value of a node, and that adding nodes changes no value already there. -/

namespace Sys2Proof.Machine

theorem graphValues_snoc (ρ : Assignment) (g : List Node) (n : Node) :
    graphValues ρ (g ++ [n]) = graphValues ρ g ++ [Node.eval ρ (graphValues ρ g) n] := by
  simp [graphValues, List.foldl_append]

@[simp] theorem graphValues_length (ρ : Assignment) (g : List Node) : (graphValues ρ g).length = g.length := by
  induction g using List.reverseRecOn with
  | nil => rfl
  | append_singleton g n ih => simp [graphValues_snoc, ih]

theorem graphValues_prefix (ρ : Assignment) {g g' : List Node} (h : g <+: g') :
    graphValues ρ g <+: graphValues ρ g' := by
  obtain ⟨e, rfl⟩ := h
  induction e using List.reverseRecOn with
  | nil => simp
  | append_singleton e n ih =>
    rw [← List.append_assoc, graphValues_snoc]
    exact ih.trans (List.prefix_append _ _)

theorem getD_of_prefix {l l' : List Bool} (h : l <+: l') {n : Nat} (hn : n < l.length) :
    l'.getD n false = l.getD n false := by
  obtain ⟨e, rfl⟩ := h
  simp [List.getD_eq_getElem?_getD, List.getElem?_append_left hn]

/-- A bit keeps its value when the graph grows. -/
theorem Factory.bitValue_extends {f f' : Factory} (h : f.Extends f') {x : Bit} (hx : f.ownsBit x = true)
    (ρ : Assignment) : f'.bitValue ρ x = f.bitValue ρ x := by
  cases x with
  | concrete v => rfl
  | symbolic n =>
    have hn : n < f.graph.length := by
      simp [ownsBit, hasNode] at hx; exact hx.2
    exact getD_of_prefix (graphValues_prefix ρ h.graph) (by simpa using hn)

theorem Factory.Extends.rfl' (f : Factory) : f.Extends f :=
  ⟨rfl, rfl, Nat.le_refl _, Nat.le_refl _, List.prefix_refl _⟩

theorem Factory.Extends.trans {f g h : Factory} (a : f.Extends g) (b : g.Extends h) : f.Extends h :=
  ⟨b.realization.trans a.realization, b.reuseNodes.trans a.reuseNodes, a.andCount.trans b.andCount,
    a.xorCount.trans b.xorCount, a.graph.trans b.graph⟩

theorem Factory.ownsBit_extends {f f' : Factory} (h : f.Extends f') {x : Bit} (hx : f.ownsBit x = true) :
    f'.ownsBit x = true := by
  have hl := h.graph.length_le
  cases x with
  | concrete v => simpa [ownsBit, matchesBit, hasNode, h.realization] using hx
  | symbolic n =>
    simp [ownsBit, matchesBit, hasNode, h.realization] at hx ⊢
    exact ⟨hx.1, by omega⟩

theorem acyclicFrom_append (k : Nat) (g e : List Node) :
    acyclicFrom k (g ++ e) = (acyclicFrom k g && acyclicFrom (k + g.length) e) := by
  induction g generalizing k with
  | nil => simp [acyclicFrom]
  | cons n g ih => simp [acyclicFrom, ih, Bool.and_assoc, Nat.add_assoc, Nat.add_comm 1]

theorem eval_of_prefix (ρ : Assignment) {l l' : List Bool} (h : l <+: l') {n : Node}
    (hn : ∀ m ∈ n.operands, m < l.length) : Node.eval ρ l' n = Node.eval ρ l n := by
  cases n with
  | input name => rfl
  | constant v => rfl
  | and a b =>
    simp only [Node.operands, List.mem_cons, List.not_mem_nil, or_false, forall_eq_or_imp, forall_eq] at hn
    simp only [Node.eval, getD_of_prefix h hn.1, getD_of_prefix h hn.2]
  | xor a b =>
    simp only [Node.operands, List.mem_cons, List.not_mem_nil, or_false, forall_eq_or_imp, forall_eq] at hn
    simp only [Node.eval, getD_of_prefix h hn.1, getD_of_prefix h hn.2]
  | output name a =>
    simp only [Node.operands, List.mem_cons, List.not_mem_nil, or_false, forall_eq] at hn
    simp only [Node.eval, getD_of_prefix h hn]

/-- In an acyclic graph a node has the value its kind gives it from the values of the whole graph. -/
theorem value_of_node (ρ : Assignment) {g : List Node} (hg : acyclicFrom 0 g = true) {k : Nat} {n : Node}
    (hk : g[k]? = some n) : (graphValues ρ g).getD k false = Node.eval ρ (graphValues ρ g) n := by
  obtain ⟨hlt, hkn⟩ := List.getElem?_eq_some_iff.mp hk
  have split : g = (g.take k ++ [n]) ++ g.drop (k + 1) := by
    rw [List.append_assoc, List.singleton_append, ← hkn, List.getElem_cons_drop, List.take_append_drop]
  have hpre : (g.take k ++ [n]) <+: g := ⟨_, split.symm⟩
  have hops : ∀ m ∈ n.operands, m < k := by
    rw [split, acyclicFrom_append, acyclicFrom_append] at hg
    simp [acyclicFrom] at hg
    intro m hm
    have := hg.1.2 m hm
    omega
  have hlen : (g.take k).length = k := by simp; omega
  have h1 : (graphValues ρ g).getD k false = Node.eval ρ (graphValues ρ (g.take k)) n := by
    rw [getD_of_prefix (graphValues_prefix ρ hpre) (by simp [hlen]), graphValues_snoc]
    simp [List.getD_eq_getElem?_getD, hlen]
  rw [h1]
  exact (eval_of_prefix ρ (graphValues_prefix ρ (List.take_prefix k g)) (by simpa [hlen] using hops)).symm

end Sys2Proof.Machine
end

