-- ==== Sys2Proof/Laws/Build.lean ====
section
/-! SUPPORT. What a construction does, once for each cell: it succeeds, extends the factory by a known number of calls, and
gives bits of known values. -/

namespace Sys2Proof.Machine

/-- The value of a bit as a function of the INPUT values. -/
abbrev Den := Assignment → Bool

/-- The bit `x` of the factory `f` has the values `v`. -/
def Factory.Denotes (f : Factory) (x : Bit) (v : Den) : Prop := f.ownsBit x = true ∧ ∀ ρ, f.bitValue ρ x = v ρ

/-- The word `w` of the factory `f` has the values `vs`, bit by bit. -/
abbrev Factory.DenotesWord (f : Factory) (w : Word) (vs : List Den) : Prop := List.Forall₂ f.Denotes w vs

/-- From a well-built factory the construction `m` goes on to a well-built extension with `na` AND calls and `nx` XOR calls
more, and a result of which `Q` holds. -/
def Build.Does {α : Type} (m : Build α) (f : Factory) (na nx : Nat) (Q : α → Factory → Prop) : Prop :=
  f.wellBuilt = true → ∃ a f', m f = .ok (a, f') ∧ f'.wellBuilt = true ∧ f.Extends f' ∧
    f'.andCount = f.andCount + na ∧ f'.xorCount = f.xorCount + nx ∧ Q a f'

theorem Factory.Denotes.extends {f f' : Factory} {x : Bit} {v : Den} (hx : f.Denotes x v) (h : f.Extends f') :
    f'.Denotes x v :=
  ⟨Factory.ownsBit_extends h hx.1, fun ρ => by rw [Factory.bitValue_extends h hx.1, hx.2 ρ]⟩

theorem denotesWord_extends {f f' : Factory} {w : Word} {vs : List Den} (hw : f.DenotesWord w vs)
    (h : f.Extends f') : f'.DenotesWord w vs :=
  List.Forall₂.imp (fun _ _ hx => hx.extends h) hw

theorem Build.Does.ret {α : Type} {f : Factory} {a : α} {Q : α → Factory → Prop} (h : Q a f) :
    Build.Does (pure a) f 0 0 Q :=
  fun hf => ⟨a, f, rfl, hf, Factory.Extends.rfl' f, rfl, rfl, h⟩

theorem Build.Does.bind {α β : Type} {m : Build α} {k : α → Build β} {f : Factory} {na nx na' nx' : Nat}
    {Q : α → Factory → Prop} {R : β → Factory → Prop} (hm : Build.Does m f na nx Q)
    (hk : ∀ a f', f.Extends f' → Q a f' → Build.Does (k a) f' na' nx' R) :
    Build.Does (m >>= k) f (na + na') (nx + nx') R := by
  intro hf
  obtain ⟨a, f', e, hf', hx, ca, cx, hQ⟩ := hm hf
  obtain ⟨b, f'', e', hf'', hx', ca', cx', hR⟩ := hk a f' hx hQ hf'
  refine ⟨b, f'', ?_, hf'', hx.trans hx', by omega, by omega, hR⟩
  show StateT.bind m k f = _
  simp only [StateT.bind, e]
  exact e'

/-- Counts and result of the same construction, said in another way. -/
theorem Build.Does.weaken {α : Type} {m : Build α} {f : Factory} {na nx na' nx' : Nat} {Q R : α → Factory → Prop}
    (h : Build.Does m f na nx Q) (ha : na = na') (hx : nx = nx')
    (hQ : ∀ a f', f.Extends f' → Q a f' → R a f') : Build.Does m f na' nx' R := by
  subst ha hx
  intro hf
  obtain ⟨a, f', e, hf', he, ca, cx, h⟩ := h hf
  exact ⟨a, f', e, hf', he, ca, cx, hQ a f' he h⟩

/-- What `emit` gives: an extension with the node at the place it answers. -/
theorem emit_spec {f : Factory} (hf : f.wellBuilt = true) (hr : f.realization = .circuit) {n : Node}
    (hn : ∀ m ∈ n.operands, m < f.graph.length) :
    (f.emit n).2.wellBuilt = true ∧ f.Extends (f.emit n).2 ∧ (f.emit n).2.andCount = f.andCount ∧
      (f.emit n).2.xorCount = f.xorCount ∧ (f.emit n).2.graph[(f.emit n).1]? = some n := by
  unfold Factory.emit
  split
  · next h =>
    have hm : n ∈ f.graph := by simp at h; exact h.2
    refine ⟨hf, Factory.Extends.rfl' f, rfl, rfl, ?_⟩
    have hlt := List.idxOf_lt_length_of_mem hm
    simp [List.getElem?_eq_getElem hlt]
  · refine ⟨?_, ⟨rfl, rfl, Nat.le_refl _, Nat.le_refl _, List.prefix_append _ _⟩, rfl, rfl, by simp⟩
    simp only [Factory.wellBuilt, Bool.and_eq_true] at hf ⊢
    refine ⟨?_, by simp [hr]⟩
    rw [acyclicFrom_append, hf.1]
    simpa [acyclicFrom] using hn

/-- A node in a well-built graph of the Circuit realization is a bit with the value of its kind. -/
theorem denotes_node {f : Factory} (hf : f.wellBuilt = true) (hr : f.realization = .circuit) {k : Nat} {n : Node}
    (hk : f.graph[k]? = some n) : f.Denotes (.symbolic k) (fun ρ => Node.eval ρ (graphValues ρ f.graph) n) := by
  have hlt : k < f.graph.length := (List.getElem?_eq_some_iff.mp hk).1
  refine ⟨by simp [Factory.ownsBit, Factory.matchesBit, Factory.hasNode, hr, hlt], fun ρ => ?_⟩
  simp only [Factory.wellBuilt, Bool.and_eq_true] at hf
  exact value_of_node ρ hf.1 hk

theorem wellBuilt_counts {f g : Factory} (hf : f.wellBuilt = true) (hr : g.realization = f.realization)
    (hg : g.graph = f.graph) : g.wellBuilt = true := by
  simpa [Factory.wellBuilt, hr, hg] using hf

theorem denotes_counts {f g : Factory} {x : Bit} {v : Den} (h : f.Denotes x v) (hr : g.realization = f.realization)
    (hg : g.graph = f.graph) : g.Denotes x v := by
  refine ⟨?_, fun ρ => ?_⟩
  · have := h.1
    cases x <;> simpa [Factory.ownsBit, Factory.matchesBit, Factory.hasNode, hr, hg] using this
  · rw [← h.2 ρ]
    cases x <;> simp [Factory.bitValue, hg]

theorem constCell_does (f : Factory) (v : Bool) :
    Build.Does (constCell v) f 0 0 (fun z f' => f'.Denotes z (fun _ => v) ∧ f'.constValue z = some v) := by
  intro hf
  cases hr : f.realization with
  | concrete =>
    exact ⟨.concrete v, f, by simp [constCell, hr], hf, Factory.Extends.rfl' f, rfl, rfl,
      ⟨by simp [Factory.ownsBit, Factory.matchesBit, Factory.hasNode, hr], fun _ => rfl⟩, rfl⟩
  | circuit =>
    obtain ⟨hw, he, ca, cx, hk⟩ := emit_spec (n := .constant v) hf hr (by simp [Node.operands])
    refine ⟨.symbolic (f.emit (.constant v)).1, (f.emit (.constant v)).2, by simp only [constCell, hr], hw, he, ca, cx, ?_, ?_⟩
    · exact denotes_node hw (he.realization.trans hr) hk
    · simp [Factory.constValue, hk]

theorem inputCell_does (f : Factory) (hr : f.realization = .circuit) (name : InputName) :
    Build.Does (inputCell name) f 0 0 (fun z f' => f'.Denotes z (fun ρ => ρ name)) := by
  intro hf
  have hw : ({ f with graph := f.graph ++ [Node.input name] } : Factory).wellBuilt = true := by
    simp only [Factory.wellBuilt, Bool.and_eq_true] at hf ⊢
    refine ⟨?_, by simp [hr]⟩
    rw [acyclicFrom_append, hf.1]
    simp [acyclicFrom, Node.operands]
  refine ⟨.symbolic f.graph.length, { f with graph := f.graph ++ [.input name] }, by simp [inputCell, hr], hw,
    ⟨rfl, rfl, Nat.le_refl _, Nat.le_refl _, List.prefix_append _ _⟩, rfl, rfl, ?_⟩
  exact denotes_node (n := .input name) hw hr (by simp)

/-- The two shapes of a bit of a factory. -/
theorem ownsBit_cases {f : Factory} {x : Bit} (h : f.ownsBit x = true) :
    (f.realization = .concrete ∧ ∃ v, x = .concrete v) ∨
    (f.realization = .circuit ∧ ∃ n, x = .symbolic n ∧ n < f.graph.length) := by
  cases hr : f.realization <;> cases x <;> simp [Factory.ownsBit, Factory.matchesBit, Factory.hasNode, hr] at h ⊢
  exact h

theorem andCell_concrete {f : Factory} (hr : f.realization = .concrete) (a b : Bool) :
    andCell (.concrete a) (.concrete b) f = .ok (.concrete (a && b), { f with andCount := f.andCount + 1 }) := by
  unfold andCell
  rw [hr]

theorem andCell_circuit {f : Factory} (hr : f.realization = .circuit) {m n : Nat} (hm : m < f.graph.length)
    (hn : n < f.graph.length) :
    andCell (.symbolic m) (.symbolic n) f =
      .ok (.symbolic (f.emit (.and m n)).1, { (f.emit (.and m n)).2 with andCount := f.andCount + 1 }) := by
  unfold andCell
  split
  · next h _ _ => simp [hr] at h
  · next h1 h2 => cases h1; cases h2; simp [hm, hn]
  · next h => exact absurd rfl (h m n hr rfl)

theorem andCell_does {f : Factory} {x y : Bit} {u v : Den} (hx : f.Denotes x u) (hy : f.Denotes y v) :
    Build.Does (andCell x y) f 1 0 (fun z f' => f'.Denotes z (fun ρ => u ρ && v ρ)) := by
  intro hf
  rcases ownsBit_cases hx.1 with ⟨hr, a, rfl⟩ | ⟨hr, m, rfl, hm⟩
  · rcases ownsBit_cases hy.1 with ⟨_, b, rfl⟩ | ⟨hr', _⟩
    · refine ⟨_, _, andCell_concrete hr a b, ?_, ⟨rfl, rfl, Nat.le_succ _, Nat.le_refl _, List.prefix_refl _⟩,
        rfl, rfl, ?_, fun ρ => ?_⟩
      · exact wellBuilt_counts hf rfl rfl
      · simp [Factory.ownsBit, Factory.matchesBit, Factory.hasNode, hr]
      · beta_reduce; rw [← hx.2 ρ, ← hy.2 ρ]; rfl
    · rw [hr] at hr'; cases hr'
  · rcases ownsBit_cases hy.1 with ⟨hr', _⟩ | ⟨_, n, rfl, hn⟩
    · rw [hr] at hr'; cases hr'
    · obtain ⟨hw, he, ca, cx, hk⟩ := emit_spec (n := .and m n) hf hr (by simp [Node.operands, hm, hn])
      refine ⟨_, _, andCell_circuit hr hm hn,
        wellBuilt_counts hw rfl rfl, ⟨he.realization, he.reuseNodes, Nat.le_succ _, by simp [cx], he.graph⟩,
        rfl, by simp [cx], ?_⟩
      have hd := denotes_node hw (he.realization.trans hr) hk
      refine denotes_counts ⟨hd.1, fun ρ => (hd.2 ρ).trans ?_⟩ rfl rfl
      have h1 := (hx.extends he).2 ρ
      have h2 := (hy.extends he).2 ρ
      simp only [Factory.bitValue] at h1 h2
      simp only [Node.eval, h1, h2]

theorem xorCell_concrete {f : Factory} (hr : f.realization = .concrete) (a b : Bool) :
    xorCell (.concrete a) (.concrete b) f = .ok (.concrete (a ^^ b), { f with xorCount := f.xorCount + 1 }) := by
  unfold xorCell
  rw [hr]

theorem xorCell_circuit {f : Factory} (hr : f.realization = .circuit) {m n : Nat} (hm : m < f.graph.length)
    (hn : n < f.graph.length) :
    xorCell (.symbolic m) (.symbolic n) f =
      .ok (.symbolic (f.emit (.xor m n)).1, { (f.emit (.xor m n)).2 with xorCount := f.xorCount + 1 }) := by
  unfold xorCell
  split
  · next h _ _ => simp [hr] at h
  · next h1 h2 => cases h1; cases h2; simp [hm, hn]
  · next h => exact absurd rfl (h m n hr rfl)

theorem xorCell_does {f : Factory} {x y : Bit} {u v : Den} (hx : f.Denotes x u) (hy : f.Denotes y v) :
    Build.Does (xorCell x y) f 0 1 (fun z f' => f'.Denotes z (fun ρ => u ρ ^^ v ρ)) := by
  intro hf
  rcases ownsBit_cases hx.1 with ⟨hr, a, rfl⟩ | ⟨hr, m, rfl, hm⟩
  · rcases ownsBit_cases hy.1 with ⟨_, b, rfl⟩ | ⟨hr', _⟩
    · refine ⟨_, _, xorCell_concrete hr a b, ?_, ⟨rfl, rfl, Nat.le_refl _, Nat.le_succ _, List.prefix_refl _⟩,
        rfl, rfl, ?_, fun ρ => ?_⟩
      · exact wellBuilt_counts hf rfl rfl
      · simp [Factory.ownsBit, Factory.matchesBit, Factory.hasNode, hr]
      · beta_reduce; rw [← hx.2 ρ, ← hy.2 ρ]; rfl
    · rw [hr] at hr'; cases hr'
  · rcases ownsBit_cases hy.1 with ⟨hr', _⟩ | ⟨_, n, rfl, hn⟩
    · rw [hr] at hr'; cases hr'
    · obtain ⟨hw, he, ca, cx, hk⟩ := emit_spec (n := .xor m n) hf hr (by simp [Node.operands, hm, hn])
      refine ⟨_, _, xorCell_circuit hr hm hn,
        wellBuilt_counts hw rfl rfl, ⟨he.realization, he.reuseNodes, by simp [ca], Nat.le_succ _, he.graph⟩,
        by simp [ca], rfl, ?_⟩
      have hd := denotes_node hw (he.realization.trans hr) hk
      refine denotes_counts ⟨hd.1, fun ρ => (hd.2 ρ).trans ?_⟩ rfl rfl
      have h1 := (hx.extends he).2 ρ
      have h2 := (hy.extends he).2 ρ
      simp only [Factory.bitValue] at h1 h2
      simp only [Node.eval, h1, h2]

theorem notCell_does {f : Factory} {x : Bit} {u : Den} (hx : f.Denotes x u) :
    Build.Does (notCell x) f 0 1 (fun z f' => f'.Denotes z (fun ρ => !u ρ)) := by
  refine Build.Does.bind (na := 0) (na' := 0) (nx := 0) (nx' := 1) (constCell_does f true) fun one f1 e1 h1 => ?_
  refine (xorCell_does (hx.extends e1) h1.1).weaken rfl rfl fun z f2 _ h => ?_
  simpa using h

theorem muxCell_does {f : Factory} {c x y : Bit} {k u v : Den} (hc : f.Denotes c k) (hx : f.Denotes x u)
    (hy : f.Denotes y v) :
    Build.Does (muxCell c x y) f 1 2 (fun z f' => f'.Denotes z (fun ρ => if k ρ then u ρ else v ρ)) := by
  refine Build.Does.bind (na := 0) (na' := 1) (nx := 1) (nx' := 1) (xorCell_does hx hy) fun t f1 e1 h1 => ?_
  refine Build.Does.bind (na := 1) (na' := 0) (nx := 0) (nx' := 1) (andCell_does (hc.extends e1) h1) fun w f2 e2 h2 => ?_
  refine (xorCell_does ((hy.extends e1).extends e2) h2).weaken rfl rfl fun z f3 _ h => ?_
  refine ⟨h.1, fun ρ => ?_⟩
  rw [h.2 ρ]
  beta_reduce
  cases k ρ <;> cases u ρ <;> cases v ρ <;> rfl

theorem orCell_does {f : Factory} {x y : Bit} {u v : Den} (hx : f.Denotes x u) (hy : f.Denotes y v) :
    Build.Does (orCell x y) f 1 2 (fun z f' => f'.Denotes z (fun ρ => u ρ || v ρ)) := by
  refine Build.Does.bind (na := 0) (na' := 1) (nx := 1) (nx' := 1) (xorCell_does hx hy) fun t f1 e1 h1 => ?_
  refine Build.Does.bind (na := 1) (na' := 0) (nx := 0) (nx' := 1)
    (andCell_does (hx.extends e1) (hy.extends e1)) fun w f2 e2 h2 => ?_
  refine (xorCell_does (h1.extends e2) h2).weaken rfl rfl fun z f3 _ h => ?_
  refine ⟨h.1, fun ρ => ?_⟩
  rw [h.2 ρ]
  beta_reduce
  cases u ρ <;> cases v ρ <;> rfl

theorem halfAdder_does {f : Factory} {x y : Bit} {u v : Den} (hx : f.Denotes x u) (hy : f.Denotes y v) :
    Build.Does (halfAdder x y) f 1 1 (fun z f' => f'.Denotes z.1 (fun ρ => u ρ ^^ v ρ) ∧
      f'.Denotes z.2 (fun ρ => u ρ && v ρ)) := by
  refine Build.Does.bind (na := 0) (na' := 1) (nx := 1) (nx' := 0) (xorCell_does hx hy) fun s f1 e1 h1 => ?_
  refine Build.Does.bind (na' := 0) (nx' := 0)
    (andCell_does (hx.extends e1) (hy.extends e1)) fun c f2 e2 h2 => ?_
  exact Build.Does.ret ⟨h1.extends e2, h2⟩

theorem fullAdder_does {f : Factory} {x y ci : Bit} {u v w : Den} (hx : f.Denotes x u) (hy : f.Denotes y v)
    (hc : f.Denotes ci w) :
    Build.Does (fullAdder x y ci) f 2 3 (fun z f' => f'.Denotes z.1 (fun ρ => u ρ ^^ v ρ ^^ w ρ) ∧
      f'.Denotes z.2 (fun ρ => Bool.atLeastTwo (u ρ) (v ρ) (w ρ))) := by
  refine Build.Does.bind (na := 0) (na' := 2) (nx := 1) (nx' := 2) (xorCell_does hx hy) fun t f1 e1 h1 => ?_
  refine Build.Does.bind (na := 0) (na' := 2) (nx := 1) (nx' := 1) (xorCell_does h1 (hc.extends e1)) fun s f2 e2 h2 => ?_
  have e12 := e1.trans e2
  refine Build.Does.bind (na := 1) (na' := 1) (nx := 0) (nx' := 1)
    (andCell_does (hx.extends e12) (hy.extends e12)) fun g f3 e3 h3 => ?_
  refine Build.Does.bind (na := 1) (na' := 0) (nx := 0) (nx' := 1)
    (andCell_does (h1.extends (e2.trans e3)) (hc.extends (e12.trans e3))) fun p f4 e4 h4 => ?_
  refine Build.Does.bind (na' := 0) (nx' := 0) (xorCell_does (h3.extends e4) h4) fun co f5 e5 h5 => ?_
  refine Build.Does.ret ⟨?_, h5.1, fun ρ => ?_⟩
  · have := h2.extends ((e3.trans e4).trans e5)
    exact ⟨this.1, fun ρ => (this.2 ρ).trans (by simp)⟩
  · rw [h5.2 ρ]
    beta_reduce
    cases u ρ <;> cases v ρ <;> cases w ρ <;> rfl

end Sys2Proof.Machine
end

