-- ==== Sys2Proof/Laws/Words.lean ====
section
/-! SUPPORT. The word-wide constructions: what they compute on the values of words, with their exact costs. -/

namespace Sys2Proof.Machine

/-- The values of a word's bits under one assignment. -/
def valuesAt (vs : List Den) (ρ : Assignment) : List Bool := vs.map fun v => v ρ

@[simp] theorem valuesAt_nil (ρ : Assignment) : valuesAt [] ρ = [] := rfl
@[simp] theorem valuesAt_cons (v : Den) (vs : List Den) (ρ : Assignment) :
    valuesAt (v :: vs) ρ = v ρ :: valuesAt vs ρ := rfl
@[simp] theorem valuesAt_length (vs : List Den) (ρ : Assignment) : (valuesAt vs ρ).length = vs.length := by
  simp [valuesAt]

theorem wordBits_of_denotes {f : Factory} {w : Word} {vs : List Den} (h : f.DenotesWord w vs) (ρ : Assignment) :
    f.wordBits ρ w = valuesAt vs ρ := by
  induction h with
  | nil => rfl
  | cons hx _ ih =>
    simp only [Factory.wordBits, List.map_cons, valuesAt_cons, hx.2 ρ]
    exact congrArg _ ih

theorem denotesWord_owns {f : Factory} {w : Word} {vs : List Den} (h : f.DenotesWord w vs) :
    w.all f.ownsBit = true := by
  induction h with
  | nil => rfl
  | cons hx _ ih => simp [hx.1, ih]

/-- A word of the factory's bits denotes its own values. -/
theorem denotesWord_self {f : Factory} {w : Word} (h : w.all f.ownsBit = true) :
    f.DenotesWord w (w.map fun x ρ => f.bitValue ρ x) := by
  induction w with
  | nil => exact .nil
  | cons x xs ih =>
    simp only [List.all_cons, Bool.and_eq_true] at h
    exact .cons ⟨h.1, fun _ => rfl⟩ (ih h.2)

theorem uval_lt (bs : List Bool) : uval bs < 2 ^ bs.length := by
  induction bs with
  | nil => simp [uval]
  | cons b bs ih =>
    have : b.toNat ≤ 1 := by cases b <;> simp
    simp only [uval, List.length_cons, Nat.pow_succ]
    omega

theorem uval_testBit (bs : List Bool) (i : Nat) : (uval bs).testBit i = bs.getD i false := by
  induction bs generalizing i with
  | nil => simp [uval]
  | cons b bs ih =>
    cases i with
    | zero => cases b <;> simp [uval, Nat.testBit_zero]
    | succ i =>
      have : (uval (b :: bs)) / 2 = uval bs := by
        have : b.toNat ≤ 1 := by cases b <;> simp
        simp only [uval]; omega
      rw [Nat.testBit_succ, this, ih]
      simp

theorem wordOf_toNat {W : Nat} {bs : List Bool} (h : bs.length = W) : (wordOf W bs).toNat = uval bs := by
  subst h
  simp [wordOf, Nat.mod_eq_of_lt (uval_lt bs)]

theorem wordOf_getLsbD {W : Nat} {bs : List Bool} (h : bs.length = W) (i : Nat) :
    (wordOf W bs).getLsbD i = bs.getD i false := by
  rw [← uval_testBit, ← wordOf_toNat h]; rfl

theorem bitsOf_getLsbD (W : Nat) (bit : Nat → Bool) (i : Nat) :
    (Functional.bitsOf W bit).getLsbD i = (decide (i < W) && bit i) := by
  rw [Functional.bitsOf, wordOf_getLsbD (by simp)]
  by_cases h : i < W <;> simp [h]

theorem constBits_does (n k : Nat) (f : Factory) :
    Build.Does (constBits n k) f 0 0 (fun w f' =>
      f'.DenotesWord w ((List.range n).map fun i _ => k.testBit i)) := by
  induction n generalizing k f with
  | zero => exact Build.Does.ret .nil
  | succ n ih =>
    refine Build.Does.bind (na' := 0) (nx' := 0) (constCell_does f _) fun x f1 e1 h1 => ?_
    refine Build.Does.bind (na' := 0) (nx' := 0) (ih (k / 2) f1) fun xs f2 e2 h2 => ?_
    refine Build.Does.ret ?_
    rw [List.range_succ_eq_map, List.map_cons, List.map_map]
    refine .cons ?_ ?_
    · have := h1.1.extends e2
      refine ⟨this.1, fun ρ => (this.2 ρ).trans ?_⟩
      simp [Nat.testBit_zero, beq_eq_decide]
    · simpa [Function.comp_def, Nat.testBit_succ] using h2

theorem constBits_zero_does (n : Nat) (f : Factory) :
    Build.Does (constBits n 0) f 0 0 (fun w f' =>
      f'.DenotesWord w (List.replicate n fun _ => false) ∧ w.length = n ∧
        w.all (fun x => f'.constValue x == some false) = true) := by
  induction n generalizing f with
  | zero => exact Build.Does.ret ⟨.nil, rfl, rfl⟩
  | succ n ih =>
    refine Build.Does.bind (na' := 0) (nx' := 0) (constCell_does f _) fun x f1 e1 h1 => ?_
    refine Build.Does.bind (na' := 0) (nx' := 0) (ih f1) fun xs f2 e2 h2 => ?_
    refine Build.Does.ret ⟨.cons (h1.1.extends e2) h2.1, by simp [h2.2.1], ?_⟩
    have hx : f2.constValue x = some false := by
      have h := h1.2
      cases x with
      | concrete v => simpa [Factory.constValue] using h
      | symbolic m =>
        cases hm : f1.graph[m]? with
        | none => simp [Factory.constValue, hm] at h
        | some nd =>
          obtain ⟨e, he⟩ := e2.graph
          have : f2.graph[m]? = some nd := by
            rw [← he, List.getElem?_append_left (List.getElem?_eq_some_iff.mp hm).1, hm]
          simpa [Factory.constValue, hm, this] using h
    simpa [hx] using h2.2.2

theorem inputWord_does (label : Nat) (n i : Nat) (f : Factory) (hr : f.realization = .circuit) :
    Build.Does (inputWord label n i) f 0 0 (fun w f' =>
      f'.DenotesWord w ((List.range n).map fun j ρ => ρ { label := label, bit := i + j })) := by
  induction n generalizing i f with
  | zero => exact Build.Does.ret .nil
  | succ n ih =>
    refine Build.Does.bind (na' := 0) (nx' := 0) (inputCell_does f hr _) fun x f1 e1 h1 => ?_
    refine Build.Does.bind (na' := 0) (nx' := 0) (ih (i + 1) f1 (e1.realization.trans hr)) fun xs f2 e2 h2 => ?_
    refine Build.Does.ret ?_
    rw [List.range_succ_eq_map, List.map_cons, List.map_map]
    refine .cons (h1.extends e2) ?_
    simpa [Function.comp_def, Nat.add_assoc, Nat.add_comm 1, Nat.add_left_comm] using h2

theorem notWord_does {f : Factory} {x : Word} {vs : List Den} (hx : f.DenotesWord x vs) :
    Build.Does (notWord x) f 0 vs.length (fun y f' => f'.DenotesWord y (vs.map fun v ρ => !v ρ)) := by
  induction x generalizing f vs with
  | nil => cases hx; exact Build.Does.ret .nil
  | cons a as ih =>
    cases hx with
    | @cons _ v _ vs hx hxs =>
    refine Build.Does.weaken (na := 0) (nx := 1 + vs.length) ?_ rfl (by simp [Nat.add_comm]) (fun _ _ _ h => h)
    refine Build.Does.bind (na := 0) (na' := 0) (notCell_does hx) fun y f1 e1 h1 => ?_
    refine Build.Does.bind (na' := 0) (nx' := 0) (ih (denotesWord_extends hxs e1)) fun ys f2 e2 h2 => ?_
    exact Build.Does.ret (.cons (h1.extends e2) h2)

/-- The word of the first values where the control is true, else of the second. -/
def choice (k : Den) (us vs : List Den) : List Den := List.zipWith (fun u v ρ => if k ρ then u ρ else v ρ) us vs

theorem choice_length (k : Den) {us vs : List Den} (h : us.length = vs.length) : (choice k us vs).length = us.length := by
  simp [choice, h]

theorem choice_valuesAt (k : Den) {us vs : List Den} (h : us.length = vs.length) (ρ : Assignment) :
    valuesAt (choice k us vs) ρ = if k ρ then valuesAt us ρ else valuesAt vs ρ := by
  induction us generalizing vs with
  | nil => cases vs <;> simp_all [choice]
  | cons u us ih =>
    cases vs with
    | nil => simp at h
    | cons v vs =>
      have := ih (vs := vs) (by simpa using h)
      simp only [choice] at this
      simp only [choice, List.zipWith_cons_cons, valuesAt_cons, this]
      split <;> rfl

theorem muxWord_does {f : Factory} {c : Bit} {k : Den} {x y : Word} {us vs : List Den} (hc : f.Denotes c k)
    (hx : f.DenotesWord x us) (hy : f.DenotesWord y vs) (h : us.length = vs.length) :
    Build.Does (muxWord c x y) f us.length (2 * us.length) (fun z f' => f'.DenotesWord z (choice k us vs)) := by
  induction x generalizing f us vs y with
  | nil =>
    cases hx
    cases hy with
    | nil => exact Build.Does.ret .nil
    | cons => simp at h
  | cons a as ih =>
    cases hx with
    | @cons _ u _ us hxa hxs =>
    cases hy with
    | nil => simp at h
    | @cons b v bs vs hyb hys =>
    refine Build.Does.weaken (na := 1 + us.length) (nx := 2 + 2 * us.length) ?_ (by simp [Nat.add_comm])
      (by simp; omega) (fun _ _ _ h => h)
    refine Build.Does.bind (muxCell_does hc hxa hyb) fun z f1 e1 h1 => ?_
    refine Build.Does.bind (na' := 0) (nx' := 0)
      (ih (hc.extends e1) (denotesWord_extends hxs e1) (denotesWord_extends hys e1) (by simpa using h)) fun zs f2 e2 h2 => ?_
    exact Build.Does.ret (.cons (h1.extends e2) h2)

/-- What an adder leaves: a sum word and a carry whose values together are the exact sum `total`. -/
def IsSum (f : Factory) (r : Word × Bit) (n : Nat) (total : Assignment → Nat) : Prop :=
  ∃ ss co, f.DenotesWord r.1 ss ∧ f.Denotes r.2 co ∧ ss.length = n ∧
    ∀ ρ, uval (valuesAt ss ρ) + 2 ^ n * (co ρ).toNat = total ρ

theorem fullAdder_arith (x y c : Bool) :
    (x ^^ y ^^ c).toNat + 2 * (Bool.atLeastTwo x y c).toNat = x.toNat + y.toNat + c.toNat := by
  cases x <;> cases y <;> cases c <;> rfl

theorem halfAdder_arith (x y : Bool) : (x ^^ y).toNat + 2 * (x && y).toNat = x.toNat + y.toNat := by
  cases x <;> cases y <;> rfl

theorem rippleChain_does {f : Factory} {x y : Word} {c : Bit} {us vs : List Den} {w : Den}
    (hx : f.DenotesWord x us) (hy : f.DenotesWord y vs) (hc : f.Denotes c w) (h : us.length = vs.length) :
    Build.Does (rippleChain x y c) f (2 * us.length) (3 * us.length) (fun r f' =>
      IsSum f' r us.length fun ρ => uval (valuesAt us ρ) + uval (valuesAt vs ρ) + (w ρ).toNat) := by
  induction x generalizing f us vs y c w with
  | nil =>
    cases hx
    cases hy with
    | nil => exact Build.Does.ret ⟨[], w, .nil, hc, rfl, fun ρ => by simp [uval]⟩
    | cons => simp at h
  | cons a as ih =>
    cases hx with
    | @cons _ u _ us hxa hxs =>
    cases hy with
    | nil => simp at h
    | @cons b v bs vs hyb hys =>
    refine Build.Does.weaken (na := 2 + 2 * us.length) (nx := 3 + 3 * us.length) ?_ (by simp; omega)
      (by simp; omega) (fun _ _ _ h => h)
    refine Build.Does.bind (fullAdder_does hxa hyb hc) fun z f1 e1 h1 => ?_
    refine Build.Does.bind (na' := 0) (nx' := 0)
      (ih (denotesWord_extends hxs e1) (denotesWord_extends hys e1) h1.2 (by simpa using h)) fun zs f2 e2 h2 => ?_
    obtain ⟨ss, co, hs, hco, hl, hsum⟩ := h2
    refine Build.Does.ret ⟨_ :: ss, co, .cons (h1.1.extends e2) hs, hco, by simp [hl], fun ρ => ?_⟩
    have := hsum ρ
    beta_reduce at this
    simp only [valuesAt_cons, uval, List.length_cons, Nat.pow_succ]
    have hb := fullAdder_arith (u ρ) (v ρ) (w ρ)
    linarith

/-- ADD (R101, R102): the exact sum, with `2W - 1` AND and `3W - 2` XOR. -/
theorem addNet_does {f : Factory} {x y : Word} {us vs : List Den} (hx : f.DenotesWord x us)
    (hy : f.DenotesWord y vs) (h : us.length = vs.length) (hpos : 1 ≤ us.length) :
    Build.Does (addNet x y) f (2 * us.length - 1) (3 * us.length - 2) (fun r f' =>
      IsSum f' r us.length fun ρ => uval (valuesAt us ρ) + uval (valuesAt vs ρ)) := by
  cases hx with
  | nil => simp at hpos
  | @cons a u as us hxa hxs =>
  cases hy with
  | nil => simp at h
  | @cons b v bs vs hyb hys =>
  refine Build.Does.weaken (na := 1 + 2 * us.length) (nx := 1 + 3 * us.length) ?_ (by simp; omega)
    (by simp; omega) (fun _ _ _ h => h)
  refine Build.Does.bind (halfAdder_does hxa hyb) fun z f1 e1 h1 => ?_
  refine Build.Does.bind (na' := 0) (nx' := 0)
    (rippleChain_does (denotesWord_extends hxs e1) (denotesWord_extends hys e1) h1.2 (by simpa using h)) fun zs f2 e2 h2 => ?_
  obtain ⟨ss, co, hs, hco, hl, hsum⟩ := h2
  refine Build.Does.ret ⟨_ :: ss, co, .cons (h1.1.extends e2) hs, hco, by simp [hl], fun ρ => ?_⟩
  have := hsum ρ
  beta_reduce at this
  simp only [valuesAt_cons, uval, List.length_cons, Nat.pow_succ]
  have hb := halfAdder_arith (u ρ) (v ρ)
  linarith

/-- SUB (R105, R106): `uval(a) + uval(~b) + 1`, with `2W` AND and `4W` XOR. -/
theorem subNet_does {f : Factory} {x y : Word} {us vs : List Den} (hx : f.DenotesWord x us)
    (hy : f.DenotesWord y vs) (h : us.length = vs.length) :
    Build.Does (subNet x y) f (2 * us.length) (4 * us.length) (fun r f' =>
      IsSum f' r us.length fun ρ => uval (valuesAt us ρ) + uval ((valuesAt vs ρ).map fun b => !b) + 1) := by
  refine Build.Does.weaken (na := 0 + (0 + 2 * us.length)) (nx := vs.length + (0 + 3 * us.length)) ?_
    (by omega) (by omega) (fun _ _ _ h => h)
  refine Build.Does.bind (notWord_does hy) fun nb f1 e1 h1 => ?_
  refine Build.Does.bind (constCell_does f1 true) fun c0 f2 e2 h2 => ?_
  refine (rippleChain_does (vs := vs.map fun v ρ => !v ρ) (denotesWord_extends hx (e1.trans e2))
    (denotesWord_extends h1 e2) h2.1 (by simpa using h)).weaken rfl rfl
    fun r f3 _ h3 => ?_
  obtain ⟨ss, co, hs, hco, hl, hsum⟩ := h3
  refine ⟨ss, co, hs, hco, hl, fun ρ => ?_⟩
  rw [hsum ρ]
  simp [valuesAt, Function.comp_def]

theorem uval_not (bs : List Bool) : uval (bs.map fun b => !b) = 2 ^ bs.length - 1 - uval bs := by
  induction bs with
  | nil => rfl
  | cons b bs ih =>
    have := uval_lt bs
    simp only [List.map_cons, uval, ih, List.length_cons, Nat.pow_succ]
    cases b <;> simp <;> omega

theorem andChain_does {f : Factory} {e : Bit} {u : Den} {z : Word} {vs : List Den} (he : f.Denotes e u)
    (hz : f.DenotesWord z vs) :
    Build.Does (andChain e z) f vs.length 0 (fun r f' => f'.Denotes r fun ρ => u ρ && (valuesAt vs ρ).all id) := by
  induction z generalizing f e u vs with
  | nil =>
    cases hz
    exact Build.Does.ret ⟨he.1, fun ρ => by simp [he.2 ρ]⟩
  | cons a as ih =>
    cases hz with
    | @cons _ v _ vs ha has =>
    refine Build.Does.weaken (na := 1 + vs.length) (nx := 0 + 0) ?_ (by simp [Nat.add_comm]) rfl (fun _ _ _ h => h)
    refine Build.Does.bind (andCell_does he ha) fun e' f1 e1 h1 => ?_
    refine (ih h1 (denotesWord_extends has e1)).weaken rfl rfl fun r f2 _ h => ?_
    exact ⟨h.1, fun ρ => (h.2 ρ).trans (by simp [Bool.and_assoc])⟩

/-- The comparator's flags on a difference (R125): `W` AND and `W + 2` XOR. -/
theorem compareFlags_does {f : Factory} {d : Word} {ds : List Den} (hd : f.DenotesWord d ds) (hpos : 1 ≤ ds.length) :
    Build.Does (compareFlags d) f ds.length (ds.length + 2) (fun g f' =>
      f'.Denotes g.lt (fun ρ => (valuesAt ds ρ).getLastD false) ∧
      f'.Denotes g.eq (fun ρ => (valuesAt ds ρ).all fun b => !b) ∧
      f'.Denotes g.gt (fun ρ => !(valuesAt ds ρ).getLastD false && !((valuesAt ds ρ).all fun b => !b))) := by
  refine Build.Does.weaken (na := 0 + ds.length) (nx := ds.length + 2) ?_ (by omega) rfl (fun _ _ _ h => h)
  refine Build.Does.bind (notWord_does hd) fun z f1 e1 h1 => ?_
  have hlast : ∃ x, d.getLast? = some x ∧ f.Denotes x (fun ρ => (valuesAt ds ρ).getLastD false) := by
    clear h1
    induction hd with
    | nil => simp at hpos
    | @cons a v as vs ha has ih =>
      cases has with
      | nil => exact ⟨a, rfl, by simpa using ha⟩
      | @cons b w bs ws hb hbs =>
        obtain ⟨x, hx, hden⟩ := ih (by simp)
        refine ⟨x, by simpa using hx, hden.1, fun ρ => (hden.2 ρ).trans (by simp)⟩
  obtain ⟨x, hx, hden⟩ := hlast
  cases ds with
  | nil => simp at hpos
  | cons v vs =>
  cases h1 with
  | @cons z0 _ zs _ hz hzs =>
  simp only [hx]
  refine Build.Does.weaken (na := (vs.map fun v (ρ : Assignment) => !v ρ).length + (0 + (0 + (1 + 0)))) (nx := 0 + (1 + (1 + (0 + 0)))) ?_ (by simp) rfl
    (fun _ _ _ h => h)
  refine Build.Does.bind (andChain_does (vs := vs.map fun v ρ => !v ρ) hz hzs) fun eq f2 e2 h2 => ?_
  have heq : f2.Denotes eq (fun ρ => (valuesAt (v :: vs) ρ).all fun b => !b) :=
    ⟨h2.1, fun ρ => (h2.2 ρ).trans (by simp [valuesAt, List.all_map, Function.comp_def])⟩
  have hlt := hden.extends (e1.trans e2)
  refine Build.Does.bind (notCell_does hlt) fun nlt f3 e3 h3 => ?_
  refine Build.Does.bind (notCell_does (heq.extends e3)) fun neq f4 e4 h4 => ?_
  refine Build.Does.bind (andCell_does (h3.extends e4) h4) fun gt f5 e5 h5 => ?_
  have e35 := (e3.trans e4).trans e5
  exact Build.Does.ret ⟨hlt.extends e35, heq.extends e35, h5⟩

end Sys2Proof.Machine
end

