-- ==== Sys2Proof/Laws/Nets.lean ====
section
/-! SUPPORT. The netlist of each operation computes the operation's rule: ADD, SUB, CMP, SEL and the one-position forms. -/

namespace Sys2Proof.Machine

/-- The values on the ports, from the values of the wires; `op` plays no part in a netlist. -/
def portsAt (W : Nat) (as bs : List Den) (k ci : Den) (ρ : Assignment) : Functional.Ports W :=
  { op := 0, a := wordOf W (valuesAt as ρ), b := wordOf W (valuesAt bs ρ), ctrl := k ρ, cin := ci ρ }

/-- The wires carry words of width `W` with the values `as`, `bs` and bits with the values `k`, `ci`, and the one
subtractor's result. -/
structure Wires.Carry (w : Wires) (f : Factory) (W : Nat) (as bs : List Den) (k ci : Den) : Prop where
  a : f.DenotesWord w.a as
  b : f.DenotesWord w.b bs
  ctrl : f.Denotes w.ctrl k
  cin : f.Denotes w.cin ci
  lenA : as.length = W
  lenB : bs.length = W
  sub : IsSum f (w.difference, w.notBorrow) W fun ρ =>
    uval (valuesAt as ρ) + uval ((valuesAt bs ρ).map fun b => !b) + 1

/-- The result of a netlist has width `W` and the values `g`. -/
def IsResult (f : Factory) (r : Word × Bit) (W : Nat) (g : Assignment → BitVec W × Bool) : Prop :=
  ∃ rs co, f.DenotesWord r.1 rs ∧ f.Denotes r.2 co ∧ rs.length = W ∧
    ∀ ρ, (wordOf W (valuesAt rs ρ), co ρ) = g ρ

theorem word_nat (W n : Nat) : Functional.word W (n : Int) = BitVec.ofNat W n := by
  simp [Functional.word]

theorem isResult_of_isSum {f : Factory} {r : Word × Bit} {W : Nat} {total : Assignment → Nat}
    (h : IsSum f r W total) :
    IsResult f r W fun ρ => (Functional.word W (total ρ), decide (2 ^ W ≤ total ρ)) := by
  obtain ⟨ss, co, hs, hco, hl, hsum⟩ := h
  refine ⟨ss, co, hs, hco, hl, fun ρ => ?_⟩
  have h1 := hsum ρ
  have h2 := uval_lt (valuesAt ss ρ)
  rw [valuesAt_length, hl] at h2
  beta_reduce
  rw [word_nat]
  refine Prod.ext ?_ ?_
  · refine BitVec.eq_of_toNat_eq ?_
    rw [wordOf_toNat (by simp [hl]), BitVec.toNat_ofNat, ← h1, Nat.add_mul_mod_self_left, Nat.mod_eq_of_lt h2]
  · cases hc : co ρ <;> simp [hc] at h1 ⊢ <;> omega

theorem not_toNat {W : Nat} {bs : List Bool} (h : bs.length = W) :
    (~~~(wordOf W bs)).toNat = uval (bs.map fun b => !b) := by
  rw [BitVec.toNat_not, wordOf_toNat h, uval_not, h]

theorem netAdd_does {w : Wires} {f : Factory} {W : Nat} {as bs : List Den} {k ci : Den} (hW : 1 ≤ W)
    (h : w.Carry f W as bs k ci) :
    Build.Does (netAdd w) f (2 * W - 1) (3 * W - 2) (fun r f' =>
      IsResult f' r W fun ρ => Functional.result .add (portsAt W as bs k ci ρ)) := by
  have := addNet_does h.a h.b (h.lenA.trans h.lenB.symm) (h.lenA ▸ hW)
  refine this.weaken (by rw [h.lenA]) (by rw [h.lenA]) fun r f' _ hr => ?_
  rw [h.lenA] at hr
  have hr := isResult_of_isSum hr
  simpa [Functional.result, Functional.add, portsAt, wordOf_toNat, h.lenA, h.lenB] using hr

theorem sub_isResult {w : Wires} {f : Factory} {W : Nat} {as bs : List Den} {k ci : Den} (h : w.Carry f W as bs k ci) :
    IsResult f (w.difference, w.notBorrow) W fun ρ => Functional.sub (wordOf W (valuesAt as ρ)) (wordOf W (valuesAt bs ρ)) := by
  have hr := isResult_of_isSum h.sub
  have hn : ∀ ρ, (~~~(wordOf W (valuesAt bs ρ))).toNat = uval ((valuesAt bs ρ).map fun b => !b) :=
    fun ρ => not_toNat (by simp [h.lenB])
  simpa only [Functional.sub, hn, wordOf_toNat, h.lenA, valuesAt_length] using hr

theorem netSub_does {w : Wires} {f : Factory} {W : Nat} {as bs : List Den} {k ci : Den} (h : w.Carry f W as bs k ci) :
    Build.Does (netSub w) f 0 0 (fun r f' =>
      IsResult f' r W fun ρ => Functional.result .sub (portsAt W as bs k ci ρ)) :=
  Build.Does.ret (sub_isResult h)

theorem netCmp_does {w : Wires} {f : Factory} {W : Nat} {as bs : List Den} {k ci : Den} (h : w.Carry f W as bs k ci) :
    Build.Does (netCmp w) f 0 0 (fun r f' =>
      IsResult f' r W fun ρ => Functional.result .cmp (portsAt W as bs k ci ρ)) := by
  obtain ⟨ss, co, hs, hco, hl, hv⟩ := sub_isResult h
  refine Build.Does.ret ⟨as, co, h.a, hco, h.lenA, fun ρ => Prod.ext rfl ?_⟩
  have e := congrArg Prod.snd (hv ρ)
  exact e

theorem sel_eq {W : Nat} (c : Bool) (a b : BitVec W) : Functional.sel c a b = if c then a else b := by
  refine BitVec.eq_of_getLsbD_eq fun i hi => ?_
  rw [Functional.sel, bitsOf_getLsbD]
  cases c <;> simp [hi]

theorem netSel_does {w : Wires} {f : Factory} {W : Nat} {as bs : List Den} {k ci : Den} (h : w.Carry f W as bs k ci) :
    Build.Does (netSel w) f W (2 * W) (fun r f' =>
      IsResult f' r W fun ρ => Functional.result .sel (portsAt W as bs k ci ρ)) := by
  have hl := h.lenA.trans h.lenB.symm
  refine Build.Does.weaken (na := as.length + (0 + 0)) (nx := 2 * as.length + (0 + 0)) ?_ (by simp [h.lenA])
    (by simp [h.lenA]) (fun _ _ _ h => h)
  refine Build.Does.bind (muxWord_does h.ctrl h.a h.b hl) fun r f1 e1 h1 => ?_
  refine Build.Does.bind (constCell_does f1 false) fun co f2 e2 h2 => ?_
  refine Build.Does.ret ⟨choice k as bs, fun _ => false, denotesWord_extends h1 e2, h2.1,
    (choice_length k hl).trans h.lenA, fun ρ => Prod.ext ?_ rfl⟩
  simp only [choice_valuesAt k hl, Functional.result, portsAt, sel_eq]
  split <;> rfl

/-- The first and the last bit of a word, and its other bits, with their values. -/
theorem left_isResult {f : Factory} {x : Word} {vs : List Den} {e : Bit} {u : Den} {W : Nat} (hW : 1 ≤ W)
    (hx : f.DenotesWord x vs) (he : f.Denotes e u) (hl : vs.length = W) :
    Build.Does (leftWiring x e) f 0 0 (fun r f' =>
      IsResult f' r W fun ρ => Functional.left (wordOf W (valuesAt vs ρ)) (u ρ)) := by
  have hlast : ∃ o d, x.getLast? = some o ∧ f.Denotes o d ∧ ∀ ρ, d ρ = (wordOf W (valuesAt vs ρ)).getLsbD (W - 1) := by
    obtain ⟨o, ho⟩ : ∃ o, x.getLast? = some o := by
      cases x with
      | nil => cases hx; simp at hl; omega
      | cons a as => exact ⟨_, List.getLast?_eq_some_getLast (by simp)⟩
    have hlx : x.length = W := hx.length_eq.trans hl
    have hi : x[W - 1]? = some o := by rw [← ho, List.getLast?_eq_getElem?, hlx]
    obtain ⟨h1, h2⟩ := List.getElem?_eq_some_iff.mp hi
    have hv : W - 1 < vs.length := by omega
    refine ⟨o, vs[W - 1], ho, ?_, fun ρ => ?_⟩
    · have := List.forall₂_iff_get.mp hx
      have := this.2 (W - 1) h1 hv
      simpa [h2] using this
    · rw [wordOf_getLsbD (by simp [hl])]
      simp [valuesAt, hv]
  obtain ⟨o, d, ho, hd, hdv⟩ := hlast
  simp only [leftWiring, ho]
  refine Build.Does.ret ⟨u :: vs.dropLast, d, .cons he ?_, hd, by simp [hl]; omega, fun ρ => Prod.ext ?_ (hdv ρ)⟩
  · rw [List.dropLast_eq_take, List.dropLast_eq_take, hx.length_eq]
    exact List.forall₂_take _ hx
  · refine BitVec.eq_of_getLsbD_eq fun i hi => ?_
    simp only [Functional.left]
    rw [bitsOf_getLsbD, wordOf_getLsbD (by simp [hl]; omega)]
    cases i with
    | zero => simp; omega
    | succ i =>
      rw [wordOf_getLsbD (by simp [hl])]
      have h1 : i < vs.length - 1 := by omega
      have h2 : i < vs.length := by omega
      simp [valuesAt, hi, h1, h2, List.getD_eq_getElem?_getD]

theorem right_isResult {f : Factory} {x : Word} {vs : List Den} {e : Bit} {u : Den} {W : Nat} (hW : 1 ≤ W)
    (hx : f.DenotesWord x vs) (he : f.Denotes e u) (hl : vs.length = W) :
    Build.Does (rightWiring x e) f 0 0 (fun r f' =>
      IsResult f' r W fun ρ => Functional.right (wordOf W (valuesAt vs ρ)) (u ρ)) := by
  cases hx with
  | nil => simp at hl; omega
  | @cons o d xs vs ho hxs =>
  refine Build.Does.ret ⟨vs ++ [u], d, List.rel_append hxs (.cons he .nil), ho, by simpa using hl,
    fun ρ => Prod.ext ?_ ?_⟩
  · refine BitVec.eq_of_getLsbD_eq fun i hi => ?_
    simp at hl
    simp only [Functional.right]
    rw [bitsOf_getLsbD, wordOf_getLsbD (by simp [hl]), wordOf_getLsbD (by simp [hl])]
    have hi' : i < W ∧ W - 1 = vs.length := by omega
    rw [hi'.2]
    by_cases h : i = vs.length
    · subst h
      simp [valuesAt, hi'.1, List.getD_eq_getElem?_getD]
    · have h' : i < vs.length := by omega
      simp [valuesAt, h, hi'.1, h', List.getD_eq_getElem?_getD, List.getElem?_append_left]
  · show d ρ = _
    simp only [Functional.right]
    rw [wordOf_getLsbD (by simpa using hl)]
    simp

theorem topBit_does {f : Factory} {x : Word} {vs : List Den} {W : Nat} (hW : 1 ≤ W)
    (hx : f.DenotesWord x vs) (hl : vs.length = W) :
    Build.Does (topBit x) f 0 0 (fun e f' => f'.Denotes e fun ρ => (wordOf W (valuesAt vs ρ)).getLsbD (W - 1)) := by
  obtain ⟨o, ho⟩ : ∃ o, x.getLast? = some o := by
    cases x with
    | nil => cases hx; simp at hl; omega
    | cons a as => exact ⟨_, List.getLast?_eq_some_getLast (by simp)⟩
  have hlx : x.length = W := hx.length_eq.trans hl
  have hi : x[W - 1]? = some o := by rw [← ho, List.getLast?_eq_getElem?, hlx]
  obtain ⟨h1, h2⟩ := List.getElem?_eq_some_iff.mp hi
  have hv : W - 1 < vs.length := by omega
  have hd : f.Denotes o vs[W - 1] := by
    have := (List.forall₂_iff_get.mp hx).2 (W - 1) h1 hv
    simpa [h2] using this
  simp only [topBit, ho]
  refine Build.Does.ret ⟨hd.1, fun ρ => (hd.2 ρ).trans ?_⟩
  beta_reduce
  rw [wordOf_getLsbD (by simp [hl])]
  simp [valuesAt, hv]

theorem bottomBit_does {f : Factory} {x : Word} {vs : List Den} {W : Nat} (hW : 1 ≤ W)
    (hx : f.DenotesWord x vs) (hl : vs.length = W) :
    Build.Does (bottomBit x) f 0 0 (fun e f' => f'.Denotes e fun ρ => (wordOf W (valuesAt vs ρ)).getLsbD 0) := by
  cases hx with
  | nil => simp at hl; omega
  | @cons o d xs vs ho hxs =>
  refine Build.Does.ret ⟨ho.1, fun ρ => (ho.2 ρ).trans ?_⟩
  beta_reduce
  rw [wordOf_getLsbD (by simpa using hl)]
  simp

section
variable {w : Wires} {f : Factory} {W : Nat} {as bs : List Den} {k ci : Den} (hW : 1 ≤ W) (h : w.Carry f W as bs k ci)
include hW h

theorem netShl_does : Build.Does (netShl w) f 0 0 (fun r f' =>
    IsResult f' r W fun ρ => Functional.result .shl (portsAt W as bs k ci ρ)) :=
  Build.Does.bind (na := 0) (nx := 0) (constCell_does f false) fun _ _ e1 h1 =>
    left_isResult hW (denotesWord_extends h.a e1) h1.1 h.lenA

theorem netShr_does : Build.Does (netShr w) f 0 0 (fun r f' =>
    IsResult f' r W fun ρ => Functional.result .shr (portsAt W as bs k ci ρ)) :=
  Build.Does.bind (na := 0) (nx := 0) (constCell_does f false) fun _ _ e1 h1 =>
    right_isResult hW (denotesWord_extends h.a e1) h1.1 h.lenA

theorem netSar_does : Build.Does (netSar w) f 0 0 (fun r f' =>
    IsResult f' r W fun ρ => Functional.result .sar (portsAt W as bs k ci ρ)) :=
  Build.Does.bind (na := 0) (nx := 0) (topBit_does hW h.a h.lenA) fun _ _ e1 h1 =>
    right_isResult hW (denotesWord_extends h.a e1) h1 h.lenA

theorem netRol_does : Build.Does (netRol w) f 0 0 (fun r f' =>
    IsResult f' r W fun ρ => Functional.result .rol (portsAt W as bs k ci ρ)) :=
  Build.Does.bind (na := 0) (nx := 0) (topBit_does hW h.a h.lenA) fun _ _ e1 h1 =>
    left_isResult hW (denotesWord_extends h.a e1) h1 h.lenA

theorem netRor_does : Build.Does (netRor w) f 0 0 (fun r f' =>
    IsResult f' r W fun ρ => Functional.result .ror (portsAt W as bs k ci ρ)) :=
  Build.Does.bind (na := 0) (nx := 0) (bottomBit_does hW h.a h.lenA) fun _ _ e1 h1 =>
    right_isResult hW (denotesWord_extends h.a e1) h1 h.lenA

theorem netRcl_does : Build.Does (netRcl w) f 0 0 (fun r f' =>
    IsResult f' r W fun ρ => Functional.result .rcl (portsAt W as bs k ci ρ)) :=
  left_isResult hW h.a h.cin h.lenA

theorem netRcr_does : Build.Does (netRcr w) f 0 0 (fun r f' =>
    IsResult f' r W fun ρ => Functional.result .rcr (portsAt W as bs k ci ρ)) :=
  right_isResult hW h.a h.cin h.lenA

end

end Sys2Proof.Machine
end

