-- ==== Sys2Proof/Laws/Barrel.lean ====
section
/-! SUPPORT. The barrel cascade computes the variable-amount rules: the amounts of the stages add up (spec/44 R176). -/

namespace Sys2Proof.Machine

/-- The moves of the barrel forms on the values of a word, least significant first. -/
def moveLeft (n : Nat) (l : List Bool) : List Bool :=
  (List.range l.length).map fun i => if i < n then false else l.getD (i - n) false
def moveRight (n : Nat) (l : List Bool) : List Bool :=
  (List.range l.length).map fun i => l.getD (i + n) false
def moveRightSigned (n : Nat) (l : List Bool) : List Bool :=
  (List.range l.length).map fun i => l.getD (i + n) (l.getLastD false)
def turnLeft (n : Nat) (l : List Bool) : List Bool :=
  (List.range l.length).map fun i => l.getD ((i + (l.length - n % l.length)) % l.length) false
def turnRight (n : Nat) (l : List Bool) : List Bool :=
  (List.range l.length).map fun i => l.getD ((i + n % l.length) % l.length) false

/-- A move that keeps the length, does nothing by 0, and adds up. -/
structure Composes (move : Nat → List Bool → List Bool) : Prop where
  length : ∀ n l, (move n l).length = l.length
  zero : ∀ l, move 0 l = l
  add : ∀ m n l, move m (move n l) = move (n + m) l

/-- Two lists of the same length with the same bits in range are equal. -/
theorem list_eq_of_getD {l l' : List Bool} (h : l.length = l'.length)
    (hb : ∀ i, i < l.length → l.getD i false = l'.getD i false) : l = l' := by
  refine List.ext_getElem h fun i h1 h2 => ?_
  have := hb i h1
  simpa [List.getD_eq_getElem?_getD, h1, h2] using this

theorem getD_map_range (n : Nat) (g : Nat → Bool) (i : Nat) (h : i < n) :
    ((List.range n).map g).getD i false = g i := by
  simp [List.getD_eq_getElem?_getD, h]

theorem getD_map_range' (n : Nat) (g : Nat → Bool) (i : Nat) (d : Bool) :
    ((List.range n).map g).getD i d = if i < n then g i else d := by
  by_cases h : i < n <;> simp [List.getD_eq_getElem?_getD, h]

theorem getD_ge {l : List Bool} {i : Nat} {d : Bool} (h : l.length ≤ i) : l.getD i d = d := by
  simp [List.getD_eq_getElem?_getD, h]

theorem moveLeft_composes : Composes moveLeft where
  length n l := by simp [moveLeft]
  zero l := list_eq_of_getD (by simp [moveLeft]) fun i hi => by
    have : i < l.length := by simpa [moveLeft] using hi
    rw [moveLeft, getD_map_range _ _ _ this]; simp
  add m n l := list_eq_of_getD (by simp [moveLeft]) fun i hi => by
    have h : i < l.length := by simpa [moveLeft] using hi
    simp only [moveLeft, List.length_map, List.length_range]
    rw [getD_map_range _ _ _ h, getD_map_range _ _ _ h, getD_map_range']
    by_cases h1 : i < m
    · simp [h1, show i < n + m by omega]
    · have : i - m < l.length := by omega
      by_cases h2 : i < n + m
      · simp [h1, h2, show i - m < n by omega]
      · simp [h1, h2, this, show ¬ i - m < n by omega, show i - m - n = i - (n + m) by omega]

theorem moveRight_composes : Composes moveRight where
  length n l := by simp [moveRight]
  zero l := list_eq_of_getD (by simp [moveRight]) fun i hi => by
    have : i < l.length := by simpa [moveRight] using hi
    rw [moveRight, getD_map_range _ _ _ this]; simp
  add m n l := list_eq_of_getD (by simp [moveRight]) fun i hi => by
    have h : i < l.length := by simpa [moveRight] using hi
    simp only [moveRight, List.length_map, List.length_range]
    rw [getD_map_range _ _ _ h, getD_map_range _ _ _ h, getD_map_range']
    by_cases h1 : i + m < l.length
    · rw [if_pos h1, Nat.add_assoc, Nat.add_comm m n]
    · rw [if_neg h1, getD_ge (by omega)]

theorem getLastD_eq (l : List Bool) : l.getLastD false = l.getD (l.length - 1) false := by
  rw [List.getLastD_eq_getLast?, List.getLast?_eq_getElem?, List.getD_eq_getElem?_getD]

theorem moveRightSigned_last (n : Nat) (l : List Bool) : (moveRightSigned n l).getLastD false = l.getLastD false := by
  by_cases h : l = []
  · subst h; rfl
  · have hl : 0 < l.length := List.length_pos_iff.mpr h
    rw [getLastD_eq, moveRightSigned, List.length_map, List.length_range, getD_map_range _ _ _ (by omega)]
    by_cases h1 : n = 0
    · subst h1
      rw [getLastD_eq]
      simp [List.getD_eq_getElem?_getD, hl]
    · exact getD_ge (by omega)

theorem moveRightSigned_composes : Composes moveRightSigned where
  length n l := by simp [moveRightSigned]
  zero l := list_eq_of_getD (by simp [moveRightSigned]) fun i hi => by
    have : i < l.length := by simpa [moveRightSigned] using hi
    rw [moveRightSigned, getD_map_range _ _ _ this]
    simp [List.getD_eq_getElem?_getD, this]
  add m n l := list_eq_of_getD (by simp [moveRightSigned]) fun i hi => by
    have h : i < l.length := by simpa [moveRightSigned] using hi
    have hlast := moveRightSigned_last n l
    rw [moveRightSigned.eq_def m, hlast]
    simp only [moveRightSigned, List.length_map, List.length_range]
    rw [getD_map_range _ _ _ h, getD_map_range _ _ _ h, getD_map_range']
    by_cases h1 : i + m < l.length
    · rw [if_pos h1, Nat.add_assoc, Nat.add_comm m n]
    · rw [if_neg h1, getD_ge (by omega)]

theorem turnLeft_composes : Composes turnLeft where
  length n l := by simp [turnLeft]
  zero l := list_eq_of_getD (by simp [turnLeft]) fun i hi => by
    have : i < l.length := by simpa [turnLeft] using hi
    rw [turnLeft, getD_map_range _ _ _ this]; simp [Nat.mod_eq_of_lt this]
  add m n l := list_eq_of_getD (by simp [turnLeft]) fun i hi => by
    have h : i < l.length := by simpa [turnLeft] using hi
    have hpos : 0 < l.length := by omega
    simp only [turnLeft, List.length_map, List.length_range]
    rw [getD_map_range _ _ _ h, getD_map_range _ _ _ h, getD_map_range _ _ _ (Nat.mod_lt _ hpos)]
    congr 1
    have h1 := Nat.mod_lt n hpos
    have h2 := Nat.mod_lt m hpos
    have h3 : (n + m) % l.length = (n % l.length + m % l.length) % l.length := Nat.add_mod _ _ _
    rw [h3]
    generalize n % l.length = a at *
    generalize m % l.length = b at *
    generalize l.length = L at *
    clear h3 hi
    rcases Nat.lt_or_ge (a + b) L with hab | hab
    · rw [Nat.mod_eq_of_lt hab, ← Nat.mod_add_mod]
      simp only [Nat.mod_mod]
      rw [Nat.mod_add_mod, ← Nat.add_mod_right (i + (L - (a + b))) L]
      congr 1; omega
    · have : (a + b) % L = a + b - L := by
        rw [Nat.mod_eq_sub_mod hab, Nat.mod_eq_of_lt (by omega)]
      rw [this, Nat.mod_add_mod]
      congr 1; omega

theorem turnRight_composes : Composes turnRight where
  length n l := by simp [turnRight]
  zero l := list_eq_of_getD (by simp [turnRight]) fun i hi => by
    have : i < l.length := by simpa [turnRight] using hi
    rw [turnRight, getD_map_range _ _ _ this]; simp [Nat.mod_eq_of_lt this]
  add m n l := list_eq_of_getD (by simp [turnRight]) fun i hi => by
    have h : i < l.length := by simpa [turnRight] using hi
    have hpos : 0 < l.length := by omega
    simp only [turnRight, List.length_map, List.length_range]
    rw [getD_map_range _ _ _ h, getD_map_range _ _ _ h, getD_map_range _ _ _ (Nat.mod_lt _ hpos)]
    congr 1
    simp only [Nat.mod_add_mod, Nat.add_mod_mod]
    congr 1; omega

/-- A stage of the cascade moves by its amount, with wires and constants only. -/
def IsStage (fix : Nat → Word → Build Word) (W : Nat) (move : Nat → List Bool → List Bool) : Prop :=
  ∀ (k : Nat) (f : Factory) (x : Word) (vs : List Den), f.DenotesWord x vs → vs.length = W →
    Build.Does (fix k x) f 0 0 (fun y f' => ∃ ys, f'.DenotesWord y ys ∧ ys.length = W ∧
      ∀ ρ, valuesAt ys ρ = move k (valuesAt vs ρ))

/-- The cascade moves by the sum of the amounts of the stages whose bit is 1, at the cost of one MUX a bit and stage (R175,
R176). -/
theorem barrel_does {fix : Nat → Word → Build Word} {W : Nat} {move : Nat → List Bool → List Bool}
    (hfix : IsStage fix W move) (hm : Composes move) {f : Factory} {b x : Word} {bs vs : List Den} (j : Nat)
    (hb : f.DenotesWord b bs) (hx : f.DenotesWord x vs) (hl : vs.length = W) :
    Build.Does (barrel fix j b x) f (bs.length * W) (2 * (bs.length * W)) (fun r f' =>
      ∃ rs, f'.DenotesWord r rs ∧ rs.length = W ∧
        ∀ ρ, valuesAt rs ρ = move (2 ^ j * uval (valuesAt bs ρ)) (valuesAt vs ρ)) := by
  induction b generalizing f j bs x vs with
  | nil =>
    cases hb
    refine Build.Does.weaken (na := 0) (nx := 0) (Build.Does.ret ⟨vs, hx, hl, fun ρ => ?_⟩) (by simp) (by simp)
      (fun _ _ _ h => h)
    simp [uval, hm.zero]
  | cons a as ih =>
    cases hb with
    | @cons _ v _ bs ha has =>
    refine Build.Does.weaken (na := 0 + (W + bs.length * W)) (nx := 0 + (2 * W + 2 * (bs.length * W))) ?_
      (by simp [Nat.add_mul]; omega) (by simp [Nat.add_mul]; omega) (fun _ _ _ h => h)
    refine Build.Does.bind (hfix (2 ^ j) f x vs hx hl) fun y f1 e1 h1 => ?_
    obtain ⟨ys, hy, hyl, hyv⟩ := h1
    have hll : ys.length = vs.length := hyl.trans hl.symm
    have hmux := muxWord_does (ha.extends e1) hy (denotesWord_extends hx e1) hll
    rw [hyl] at hmux
    refine Build.Does.bind hmux fun x' f2 e2 h2 => ?_
    refine (ih (j + 1) (denotesWord_extends has (e1.trans e2)) h2 ((choice_length v hll).trans hyl)).weaken rfl rfl
      fun r f3 _ h => ?_
    obtain ⟨rs, hr, hrl, hrv⟩ := h
    refine ⟨rs, hr, hrl, fun ρ => ?_⟩
    rw [hrv ρ, choice_valuesAt v hll, hyv ρ, valuesAt_cons, uval]
    cases hv : v ρ with
    | false => simp [Nat.pow_succ, Nat.mul_assoc]
    | true =>
      simp only [if_true, Bool.toNat_true, hm.add]
      congr 1
      rw [Nat.pow_succ]; ring

theorem denotes_getD {f : Factory} {x : Word} {vs : List Den} (hx : f.DenotesWord x vs) {d : Bit} {u : Den}
    (i : Nat) (hd : vs.length ≤ i → f.Denotes d u) : f.Denotes (x.getD i d) (vs.getD i u) := by
  induction hx generalizing i with
  | nil => simpa using hd
  | cons h _ ih =>
    cases i with
    | zero => simpa using h
    | succ i => simpa using ih i (fun hi => hd (by simpa using hi))

theorem denotesWord_map {f : Factory} {n : Nat} {g : Nat → Bit} {v : Nat → Den} (h : ∀ i, i < n → f.Denotes (g i) (v i)) :
    f.DenotesWord ((List.range n).map g) ((List.range n).map v) := by
  rw [Factory.DenotesWord, List.forall₂_map_left_iff, List.forall₂_map_right_iff, List.forall₂_same]
  intro i hi
  exact h i (List.mem_range.mp hi)

theorem getD_valuesAt (vs : List Den) (i : Nat) (u : Den) (ρ : Assignment) :
    (vs.getD i u) ρ = (valuesAt vs ρ).getD i (u ρ) := by
  by_cases h : i < vs.length <;> simp [valuesAt, List.getD_eq_getElem?_getD, h]

theorem stageBshl_isStage (W : Nat) : IsStage stageBshl W moveLeft := by
  intro k f x vs hx hl
  refine Build.Does.bind (na := 0) (na' := 0) (nx := 0) (nx' := 0) (constCell_does f false) fun z f1 e1 h1 => ?_
  have hx := denotesWord_extends hx e1
  refine Build.Does.ret ⟨(List.range x.length).map fun i => if i < k then (fun _ => false) else vs.getD (i - k) fun _ => false,
    denotesWord_map fun i hi => ?_, by simpa [hx.length_eq] using hl, fun ρ => ?_⟩
  · split
    · exact h1.1
    · exact denotes_getD hx _ fun _ => h1.1
  · simp only [valuesAt, List.map_map, moveLeft, List.length_map, hx.length_eq]
    refine List.map_congr_left fun i _ => ?_
    simp only [Function.comp]
    split
    · rfl
    · exact getD_valuesAt vs _ _ ρ

theorem stageBshr_isStage (W : Nat) : IsStage stageBshr W moveRight := by
  intro k f x vs hx hl
  refine Build.Does.bind (na := 0) (na' := 0) (nx := 0) (nx' := 0) (constCell_does f false) fun z f1 e1 h1 => ?_
  have hx := denotesWord_extends hx e1
  refine Build.Does.ret ⟨(List.range x.length).map fun i => vs.getD (i + k) fun _ => false,
    denotesWord_map fun i hi => denotes_getD hx _ fun _ => h1.1, by simpa [hx.length_eq] using hl, fun ρ => ?_⟩
  simp only [valuesAt, List.map_map, moveRight, List.length_map, hx.length_eq]
  exact List.map_congr_left fun i _ => getD_valuesAt vs _ _ ρ

theorem stageBsar_isStage {W : Nat} (hW : 1 ≤ W) : IsStage stageBsar W moveRightSigned := by
  intro k f x vs hx hl
  refine Build.Does.bind (na := 0) (na' := 0) (nx := 0) (nx' := 0) (topBit_does hW hx hl) fun e f1 e1 h1 => ?_
  have hx := denotesWord_extends hx e1
  refine Build.Does.ret ⟨(List.range x.length).map fun i => vs.getD (i + k)
    fun ρ => (wordOf W (valuesAt vs ρ)).getLsbD (W - 1),
    denotesWord_map fun i hi => denotes_getD hx _ fun _ => h1, by simpa [hx.length_eq] using hl, fun ρ => ?_⟩
  simp only [moveRightSigned, valuesAt_length]
  rw [valuesAt, List.map_map, hx.length_eq]
  refine List.map_congr_left fun i _ => ?_
  refine (getD_valuesAt vs _ _ ρ).trans ?_
  rw [wordOf_getLsbD (by simp [hl]), getLastD_eq, valuesAt_length, hl]

theorem stageBrol_isStage {W : Nat} (hW : 1 ≤ W) : IsStage stageBrol W turnLeft := by
  intro k f x vs hx hl
  have hlen := hx.length_eq
  refine Build.Does.ret ⟨(List.range x.length).map fun i =>
    vs.getD ((i + (x.length - k % x.length)) % x.length) fun _ => false,
    denotesWord_map fun i hi => denotes_getD hx _ fun h => ?_, by simpa [hlen] using hl, fun ρ => ?_⟩
  · have := Nat.mod_lt (i + (x.length - k % x.length)) (show 0 < x.length by omega)
    omega
  · simp only [valuesAt, List.map_map, turnLeft, List.length_map, hlen]
    exact List.map_congr_left fun i _ => getD_valuesAt vs _ _ ρ

theorem stageBror_isStage {W : Nat} (hW : 1 ≤ W) : IsStage stageBror W turnRight := by
  intro k f x vs hx hl
  have hlen := hx.length_eq
  refine Build.Does.ret ⟨(List.range x.length).map fun i => vs.getD ((i + k % x.length) % x.length) fun _ => false,
    denotesWord_map fun i hi => denotes_getD hx _ fun h => ?_, by simpa [hlen] using hl, fun ρ => ?_⟩
  · have := Nat.mod_lt (i + k % x.length) (show 0 < x.length by omega)
    omega
  · simp only [valuesAt, List.map_map, turnRight, List.length_map, hlen]
    exact List.map_congr_left fun i _ => getD_valuesAt vs _ _ ρ

/-- Each move is its rule on words. -/
theorem moveLeft_word {W : Nat} {l : List Bool} (h : l.length = W) (b : BitVec W) :
    wordOf W (moveLeft b.toNat l) = Functional.bshl (wordOf W l) b := by
  refine BitVec.eq_of_getLsbD_eq fun i hi => ?_
  rw [wordOf_getLsbD (by rw [moveLeft_composes.length, h]), moveLeft, h, getD_map_range _ _ _ hi, Functional.bshl,
    word_nat, BitVec.getLsbD_ofNat, wordOf_toNat h, Nat.testBit_mul_two_pow, uval_testBit]
  by_cases h1 : i < b.toNat
  · simp [h1, hi]
  · simp [h1, hi, show b.toNat ≤ i by omega]

theorem moveRight_word {W : Nat} {l : List Bool} (h : l.length = W) (b : BitVec W) :
    wordOf W (moveRight b.toNat l) = Functional.bshr (wordOf W l) b := by
  refine BitVec.eq_of_getLsbD_eq fun i hi => ?_
  rw [wordOf_getLsbD (by rw [moveRight_composes.length, h]), moveRight, h, getD_map_range _ _ _ hi, Functional.bshr,
    word_nat, BitVec.getLsbD_ofNat, wordOf_toNat h, Nat.testBit_div_two_pow, uval_testBit]
  simp [hi]

theorem bsar_eq {W : Nat} (a b : BitVec W) : Functional.bsar a b = a.sshiftRight b.toNat := by
  have : (2 : Int) ^ b.toNat = ((2 ^ b.toNat : Nat) : Int) := by simp
  rw [Functional.bsar, Functional.word, this, ← Int.shiftRight_eq_div_pow, ← BitVec.toInt_sshiftRight, BitVec.ofInt_toInt]

theorem moveRightSigned_word {W : Nat} {l : List Bool} (h : l.length = W) (b : BitVec W) :
    wordOf W (moveRightSigned b.toNat l) = Functional.bsar (wordOf W l) b := by
  refine BitVec.eq_of_getLsbD_eq fun i hi => ?_
  rw [wordOf_getLsbD (by rw [moveRightSigned_composes.length, h]), moveRightSigned, h, getD_map_range _ _ _ hi, bsar_eq,
    BitVec.getLsbD_sshiftRight, BitVec.msb_eq_getLsbD_last, wordOf_getLsbD h, wordOf_getLsbD h, getLastD_eq, h]
  by_cases h1 : b.toNat + i < W
  · have h2 : b.toNat + i < l.length := by omega
    simp [h1, List.getD_eq_getElem?_getD, h2, Nat.add_comm i, Nat.not_le.mpr hi]
  · rw [getD_ge (by omega)]
    simp [hi, h1]

theorem turnLeft_word {W : Nat} {l : List Bool} (h : l.length = W) (b : BitVec W) :
    wordOf W (turnLeft b.toNat l) = Functional.brol (wordOf W l) b := by
  refine BitVec.eq_of_getLsbD_eq fun i hi => ?_
  rw [wordOf_getLsbD (by rw [turnLeft_composes.length, h]), turnLeft, h, getD_map_range _ _ _ hi, Functional.brol,
    bitsOf_getLsbD, wordOf_getLsbD h]
  simp [hi]

theorem turnRight_word {W : Nat} {l : List Bool} (h : l.length = W) (b : BitVec W) :
    wordOf W (turnRight b.toNat l) = Functional.bror (wordOf W l) b := by
  refine BitVec.eq_of_getLsbD_eq fun i hi => ?_
  rw [wordOf_getLsbD (by rw [turnRight_composes.length, h]), turnRight, h, getD_map_range _ _ _ hi, Functional.bror,
    bitsOf_getLsbD, wordOf_getLsbD h]
  simp [hi]

section
variable {w : Wires} {f : Factory} {W : Nat} {as bs : List Den} {k ci : Den}

theorem barrelNet_does {fix : Nat → Word → Build Word} {move : Nat → List Bool → List Bool}
    {rule : BitVec W → BitVec W → BitVec W} (h : w.Carry f W as bs k ci) (hfix : IsStage fix W move)
    (hm : Composes move)
    (hw : ∀ l, l.length = W → ∀ b : BitVec W, wordOf W (move b.toNat l) = rule (wordOf W l) b) :
    Build.Does (barrelNet fix w) f (W * W) (2 * (W * W)) (fun r f' =>
      IsResult f' r W fun ρ => (rule (wordOf W (valuesAt as ρ)) (wordOf W (valuesAt bs ρ)), false)) := by
  refine Build.Does.weaken (na := bs.length * W + (0 + 0)) (nx := 2 * (bs.length * W) + (0 + 0)) ?_
    (by simp [h.lenB]) (by simp [h.lenB]) (fun _ _ _ h => h)
  refine Build.Does.bind (barrel_does hfix hm 0 h.b h.a h.lenA) fun r f1 e1 h1 => ?_
  obtain ⟨rs, hr, hrl, hrv⟩ := h1
  refine Build.Does.bind (constCell_does f1 false) fun co f2 e2 h2 => ?_
  refine Build.Does.ret ⟨rs, fun _ => false, denotesWord_extends hr e2, h2.1, hrl, fun ρ => Prod.ext ?_ rfl⟩
  have := hw (valuesAt as ρ) (by simp [h.lenA]) (wordOf W (valuesAt bs ρ))
  rw [wordOf_toNat (by simp [h.lenB])] at this
  simpa [hrv ρ] using this

theorem netBshl_does (h : w.Carry f W as bs k ci) :
    Build.Does (netBshl w) f (W * W) (2 * (W * W)) (fun r f' =>
      IsResult f' r W fun ρ => Functional.result .bshl (portsAt W as bs k ci ρ)) :=
  barrelNet_does h (stageBshl_isStage W) moveLeft_composes fun _ hl b => moveLeft_word hl b

theorem netBshr_does (h : w.Carry f W as bs k ci) :
    Build.Does (netBshr w) f (W * W) (2 * (W * W)) (fun r f' =>
      IsResult f' r W fun ρ => Functional.result .bshr (portsAt W as bs k ci ρ)) :=
  barrelNet_does h (stageBshr_isStage W) moveRight_composes fun _ hl b => moveRight_word hl b

theorem netBsar_does (hW : 1 ≤ W) (h : w.Carry f W as bs k ci) :
    Build.Does (netBsar w) f (W * W) (2 * (W * W)) (fun r f' =>
      IsResult f' r W fun ρ => Functional.result .bsar (portsAt W as bs k ci ρ)) :=
  barrelNet_does h (stageBsar_isStage hW) moveRightSigned_composes fun _ hl b => moveRightSigned_word hl b

theorem netBrol_does (hW : 1 ≤ W) (h : w.Carry f W as bs k ci) :
    Build.Does (netBrol w) f (W * W) (2 * (W * W)) (fun r f' =>
      IsResult f' r W fun ρ => Functional.result .brol (portsAt W as bs k ci ρ)) :=
  barrelNet_does h (stageBrol_isStage hW) turnLeft_composes fun _ hl b => turnLeft_word hl b

theorem netBror_does (hW : 1 ≤ W) (h : w.Carry f W as bs k ci) :
    Build.Does (netBror w) f (W * W) (2 * (W * W)) (fun r f' =>
      IsResult f' r W fun ρ => Functional.result .bror (portsAt W as bs k ci ρ)) :=
  barrelNet_does h (stageBror_isStage hW) turnRight_composes fun _ hl b => turnRight_word hl b

end

end Sys2Proof.Machine
end

