-- ==== Sys2Proof/Laws/Evaluation.lean ====
section
/-! SUPPORT. What one evaluation does, for any operation whose netlist is known: the operands it reads, the flags, the
costs, and that nothing else changes. -/

namespace Sys2Proof.Machine

/-- Every check on one port of width `W` passes, on an instance of width `V`. -/
structure Drive.Ok (d : Drive) (f : Factory) (V W : Nat) : Prop where
  literal : d.literalOk W = true
  width : d.widthOk V W = true
  realization : d.realizationOk f = true
  acyclic : d.acyclic f = true
  input : d.inputOk f = true
  driven : d.driven = true

/-- The inputs are not refused exactly when each port passes every check and no symbolic read-out is asked. -/
theorem inputsOk_iff (s : State) : s.InputsOk ↔
    (s.inputs.op.Ok s.factory s.width 5 ∧ s.inputs.a.Ok s.factory s.width s.width ∧ s.inputs.b.Ok s.factory s.width s.width ∧
      s.inputs.ctrl.Ok s.factory s.width 1 ∧ s.inputs.cin.Ok s.factory s.width 1) ∧
    ¬ (s.inputs.readOut.isSome ∧ s.factory.realization = .circuit) := by
  unfold State.InputsOk State.inputError State.drives
  constructor
  · intro h
    split at h <;> [cases h; skip]
    split at h <;> [cases h; skip]
    split at h <;> [cases h; skip]
    split at h <;> [cases h; skip]
    split at h <;> [cases h; skip]
    split at h <;> [cases h; skip]
    split at h <;> [cases h; skip]
    rename_i h1 h2 h3 h4 h5 h6 h7
    simp only [List.all_cons, List.all_nil, Bool.and_true, Bool.not_eq_true', Bool.not_eq_false,
      Bool.and_eq_true] at h1 h2 h3 h5 h6 h7
    refine ⟨⟨?_, ?_, ?_, ?_, ?_⟩, by simpa using h4⟩
    · exact ⟨h1.1, h2.1, h3.1, h5.1, h6.1, h7.1⟩
    · exact ⟨h1.2.1, h2.2.1, h3.2.1, h5.2.1, h6.2.1, h7.2.1⟩
    · exact ⟨h1.2.2.1, h2.2.2.1, h3.2.2.1, h5.2.2.1, h6.2.2.1, h7.2.2.1⟩
    · exact ⟨h1.2.2.2.1, h2.2.2.2.1, h3.2.2.2.1, h5.2.2.2.1, h6.2.2.2.1, h7.2.2.2.1⟩
    · exact ⟨h1.2.2.2.2, h2.2.2.2.2, h3.2.2.2.2, h5.2.2.2.2, h6.2.2.2.2, h7.2.2.2.2⟩
  · rintro ⟨⟨o, a, b, c, i⟩, hr⟩
    simp [o.literal, o.width, o.realization, o.acyclic, o.input, o.driven, a.literal, a.width, a.realization,
      a.acyclic, a.input, a.driven, b.literal, b.width, b.realization, b.acyclic, b.input, b.driven,
      c.literal, c.width, c.realization, c.acyclic, c.input, c.driven, i.literal, i.width, i.realization,
      i.acyclic, i.input, i.driven]
    simpa using hr

/-- Reading a port gives its word. -/
theorem read_does {d : Drive} {f0 f : Factory} {V W : Nat} (h : d.Ok f0 V W) (e : f0.Extends f) :
    Build.Does (d.read W) f 0 0 (fun w f' => ∃ vs, f'.DenotesWord w vs ∧ vs.length = W ∧
      ∀ ρ, valuesAt vs ρ = d.bits f0 ρ W) := by
  cases d with
  | undriven => exact absurd h.driven (by simp [Drive.driven])
  | output p => exact absurd h.acyclic (by simp [Drive.acyclic])
  | throughLogic n p => exact absurd h.acyclic (by simp [Drive.acyclic])
  | literal k =>
    have hk : 0 ≤ k ∧ k < 2 ^ W := by simpa [Drive.literalOk] using h.literal
    simp only [Drive.read, fromConstant, hk, and_self, if_true]
    refine (constBits_does W k.toNat f).weaken rfl rfl fun w f' _ hw => ⟨_, hw, by simp, fun ρ => ?_⟩
    simp [valuesAt, Drive.bits, Function.comp_def]
  | inputs label =>
    have hr : f.realization = .circuit := by
      rw [e.realization]; simpa [Drive.inputOk] using h.input
    refine (inputWord_does label W 0 f hr).weaken rfl rfl fun w f' _ hw => ⟨_, hw, by simp, fun ρ => ?_⟩
    simp [valuesAt, Drive.bits, Function.comp_def]
  | word w =>
    have hl : w.length = W := by simpa [Drive.widthOk, Drive.width] using h.width
    simp only [Drive.read, fromBits, hl, if_true]
    have how : w.all f0.ownsBit = true := by
      have h1 := h.realization
      have h2 := h.acyclic
      simp only [Drive.realizationOk, Drive.acyclic, List.all_eq_true] at h1 h2
      simp only [List.all_eq_true, Factory.ownsBit, Bool.and_eq_true]
      exact fun x hx => ⟨h1 x hx, h2 x hx⟩
    refine Build.Does.ret ⟨_, denotesWord_extends (denotesWord_self how) e, by simpa using hl, fun ρ => ?_⟩
    simp [valuesAt, Drive.bits, Factory.wordBits, Function.comp_def]

theorem readBit_does {d : Drive} {f0 f : Factory} {V : Nat} (h : d.Ok f0 V 1) (e : f0.Extends f) :
    Build.Does d.readBit f 0 0 (fun x f' => f'.Denotes x fun ρ => d.bit f0 ρ 1) := by
  refine Build.Does.bind (na := 0) (na' := 0) (nx := 0) (nx' := 0) (read_does h e) fun w f1 e1 h1 => ?_
  obtain ⟨vs, hw, hl, hv⟩ := h1
  match vs, hl with
  | [v], _ =>
    cases hw with
    | cons hx hxs =>
    cases hxs
    refine Build.Does.ret ⟨hx.1, fun ρ => (hx.2 ρ).trans ?_⟩
    have := hv ρ
    simp only [Drive.bit, ← this]
    rfl

theorem difference_eq_sub {W : Nat} (a b : BitVec W) : Functional.difference a b = a - b := by
  refine BitVec.eq_of_toNat_eq ?_
  rw [Functional.difference, Functional.word, BitVec.toNat_ofInt, BitVec.toNat_sub]
  have ha := a.isLt
  have hb := b.isLt
  have : ((a.toNat : Int) - b.toNat) % ((2 ^ W : Nat) : Int) = (((2 ^ W - b.toNat + a.toNat : Nat) : Int)) % ((2 ^ W : Nat) : Int) := by
    rw [Int.natCast_add, Int.natCast_sub hb.le, ← Int.add_emod_right]
    congr 1; omega
  rw [this]
  rfl

theorem sub_eq {W : Nat} (a b : BitVec W) : (Functional.sub a b).1 = a - b := by
  refine BitVec.eq_of_toNat_eq ?_
  have hb := b.isLt
  simp only [Functional.sub, word_nat, BitVec.toNat_ofNat, BitVec.toNat_sub, BitVec.toNat_not]
  congr 1; omega

theorem sub_eq_difference {W : Nat} (a b : BitVec W) : (Functional.sub a b).1 = Functional.difference a b := by
  rw [sub_eq, difference_eq_sub]

theorem uval_eq_zero (bs : List Bool) : uval bs = 0 ↔ (bs.all fun b => !b) = true := by
  induction bs with
  | nil => simp [uval]
  | cons b bs ih => cases b <;> simp [uval, ← ih]

/-- What an operation drives has width `W` and the values `g`. -/
def IsDriven (f : Factory) (d : Driven) (W : Nat) (g : Assignment → BitVec W × Bool × Bool) : Prop :=
  ∃ rs co il, f.DenotesWord d.r rs ∧ f.Denotes d.cout co ∧ f.Denotes d.ill il ∧ rs.length = W ∧
    ∀ ρ, (wordOf W (valuesAt rs ρ), co ρ, il ρ) = g ρ

theorem isDriven_extends {f f' : Factory} {d : Driven} {W : Nat} {g : Assignment → BitVec W × Bool × Bool}
    (h : IsDriven f d W g) (e : f.Extends f') : IsDriven f' d W g := by
  obtain ⟨rs, co, il, hr, hc, hi, hl, hv⟩ := h
  exact ⟨rs, co, il, denotesWord_extends hr e, hc.extends e, hi.extends e, hl, hv⟩

theorem legal_does {net : Wires → Build (Word × Bit)} {w : Wires} {f : Factory} {na nx W : Nat}
    {g : Assignment → BitVec W × Bool} (h : Build.Does (net w) f na nx fun r f' => IsResult f' r W g) :
    Build.Does (legal net w) f na nx (fun d f' => IsDriven f' d W fun ρ => ((g ρ).1, (g ρ).2, false)) := by
  refine Build.Does.bind (na' := 0) (nx' := 0) h fun r f1 e1 h1 => ?_
  obtain ⟨rs, co, hr, hc, hl, hv⟩ := h1
  refine Build.Does.bind (na' := 0) (nx' := 0) (constCell_does f1 false) fun il f2 e2 h2 => ?_
  refine Build.Does.ret ⟨rs, co, fun _ => false, denotesWord_extends hr e2, hc.extends e2, h2.1, hl, fun ρ => ?_⟩
  beta_reduce
  rw [← hv ρ]

theorem constValue_extends {f f' : Factory} (e : f.Extends f') {x : Bit} {v : Bool} (h : f.constValue x = some v) :
    f'.constValue x = some v := by
  cases x with
  | concrete u => simpa [Factory.constValue] using h
  | symbolic m =>
    cases hm : f.graph[m]? with
    | none => simp [Factory.constValue, hm] at h
    | some nd =>
      obtain ⟨g, hg⟩ := e.graph
      have : f'.graph[m]? = some nd := by
        rw [← hg, List.getElem?_append_left (List.getElem?_eq_some_iff.mp hm).1, hm]
      simpa [Factory.constValue, hm, this] using h

/-- The constant outputs of a reserved code. -/
def ShowsIllegal (d : Driven) (f : Factory) : Prop :=
  f.constValue d.ill = some true ∧ (∀ x ∈ d.r, f.constValue x = some false) ∧ f.constValue d.cout = some false

theorem showsIllegal_extends {f f' : Factory} (e : f.Extends f') {d : Driven} (h : ShowsIllegal d f) :
    ShowsIllegal d f' :=
  ⟨constValue_extends e h.1, fun x hx => constValue_extends e (h.2.1 x hx), constValue_extends e h.2.2⟩

theorem wordOf_false (W : Nat) (ρ : Assignment) : wordOf W (valuesAt (List.replicate W fun _ => false) ρ) = 0 := by
  have : uval (valuesAt (List.replicate W fun _ => false) ρ) = 0 := by
    rw [uval_eq_zero]; simp [valuesAt]
  rw [wordOf, this]; rfl

theorem illegalNet_does (W : Nat) (w : Wires) (f : Factory) :
    Build.Does (illegalNet W w) f 0 0 (fun d f' => IsDriven f' d W (fun _ => (0, false, true)) ∧ ShowsIllegal d f') := by
  refine Build.Does.bind (na := 0) (na' := 0) (nx := 0) (nx' := 0) (constBits_zero_does W f) fun r f1 e1 h1 => ?_
  refine Build.Does.bind (na := 0) (na' := 0) (nx := 0) (nx' := 0) (constCell_does f1 false) fun co f2 e2 h2 => ?_
  refine Build.Does.bind (na := 0) (na' := 0) (nx := 0) (nx' := 0) (constCell_does f2 true) fun il f3 e3 h3 => ?_
  refine Build.Does.ret ⟨⟨_, _, _, denotesWord_extends h1.1 (e2.trans e3), h2.1.extends e3, h3.1, by simp, fun ρ => ?_⟩,
    h3.2, fun x hx => constValue_extends (e2.trans e3) ?_, constValue_extends e3 h2.2⟩
  · rw [wordOf_false]
  · simpa using List.all_eq_true.mp h1.2.2 x hx

theorem outputNode_does {f : Factory} {x : Bit} (name : OutputName) (hx : f.ownsBit x = true) :
    Build.Does (outputNode name x) f 0 0 (fun _ _ => True) := by
  intro hf
  rcases ownsBit_cases hx with ⟨hr, v, rfl⟩ | ⟨hr, n, rfl, hn⟩
  · exact ⟨(), f, by simp [outputNode, hr], hf, Factory.Extends.rfl' f, rfl, rfl, trivial⟩
  · refine ⟨(), { f with graph := f.graph ++ [.output name n] }, by simp [outputNode, hr, hn], ?_,
      ⟨rfl, rfl, Nat.le_refl _, Nat.le_refl _, List.prefix_append _ _⟩, rfl, rfl, trivial⟩
    simp only [Factory.wellBuilt, Bool.and_eq_true] at hf ⊢
    refine ⟨?_, by simp [hr]⟩
    rw [acyclicFrom_append, hf.1]
    simpa [acyclicFrom, Node.operands] using hn

theorem nameBits_does {f : Factory} (label : Nat) (p : OutPort) (i : Nat) {w : Word} (hw : w.all f.ownsBit = true) :
    Build.Does (nameBits label p i w) f 0 0 (fun _ _ => True) := by
  induction w generalizing f i with
  | nil => exact Build.Does.ret trivial
  | cons x xs ih =>
    simp only [List.all_cons, Bool.and_eq_true] at hw
    refine Build.Does.bind (na := 0) (na' := 0) (nx := 0) (nx' := 0) (outputNode_does _ hw.1) fun _ f1 e1 _ => ?_
    refine ih (i + 1) ?_
    exact List.all_eq_true.mpr fun y hy => Factory.ownsBit_extends e1 (List.all_eq_true.mp hw.2 y hy)

theorem fits_extends {f f' : Factory} {o : Outputs} {W : Nat} (h : o.fits W f = true) (e : f.Extends f') :
    o.fits W f' = true := by
  simp only [Outputs.fits, Bool.and_eq_true] at h ⊢
  obtain ⟨⟨⟨⟨⟨⟨h0, h1⟩, h2⟩, h3⟩, h4⟩, h5⟩, h6⟩ := h
  exact ⟨⟨⟨⟨⟨⟨h0, List.all_eq_true.mpr fun y hy => Factory.ownsBit_extends e (List.all_eq_true.mp h1 y hy)⟩,
    Factory.ownsBit_extends e h2⟩, Factory.ownsBit_extends e h3⟩, Factory.ownsBit_extends e h4⟩,
    Factory.ownsBit_extends e h5⟩, Factory.ownsBit_extends e h6⟩

theorem nameOutputs_does {f : Factory} (label : Option Nat) {o : Outputs} {W : Nat} (h : o.fits W f = true) :
    Build.Does (nameOutputs label o) f 0 0 (fun _ _ => True) := by
  cases label with
  | none => exact Build.Does.ret trivial
  | some l =>
    have step : ∀ {g : Factory} {p : OutPort} {w : Word} {m : Build Unit}, w.all g.ownsBit = true →
        (∀ g', g.Extends g' → Build.Does m g' 0 0 fun _ _ => True) →
        Build.Does (nameBits l p 0 w >>= fun _ => m) g 0 0 fun _ _ => True := fun hw hm =>
      Build.Does.bind (na := 0) (na' := 0) (nx := 0) (nx' := 0) (nameBits_does l _ 0 hw) fun _ g' e _ => hm g' e
    have parts : ∀ {g}, f.Extends g → o.fits W g = true := fun e => fits_extends h e
    simp only [Outputs.fits, Bool.and_eq_true] at parts
    have one : ∀ {g : Factory} {x : Bit}, g.ownsBit x = true → [x].all g.ownsBit = true := fun h => by simp [h]
    refine step (parts (Factory.Extends.rfl' f)).1.1.1.1.1.2 fun g1 e1 => ?_
    refine step (one (parts e1).1.1.1.1.2) fun g2 e2 => ?_
    have e2 := e1.trans e2
    refine step (one (parts e2).1.1.1.2) fun g3 e3 => ?_
    have e3 := e2.trans e3
    refine step (one (parts e3).1.1.2) fun g4 e4 => ?_
    have e4 := e3.trans e4
    refine step (one (parts e4).1.2) fun g5 e5 => ?_
    have e5 := e4.trans e5
    exact nameBits_does l _ 0 (one (parts e5).2)

/-- What `prepare` hands on: wires that carry the ports, and the flags of R121 to R123 on `a - b`. -/
structure Prepared (s : State) (x : Wires × Flags) (f : Factory) (as bs : List Den) (k ci : Den) : Prop where
  carry : x.1.Carry f s.width as bs k ci
  ports : ∀ ρ, portsAt s.width as bs k ci ρ = { s.ports ρ with op := 0 }
  lt : f.Denotes x.2.lt fun ρ => Functional.lt (s.ports ρ).a (s.ports ρ).b
  eq : f.Denotes x.2.eq fun ρ => Functional.eq (s.ports ρ).a (s.ports ρ).b
  gt : f.Denotes x.2.gt fun ρ => Functional.gt (s.ports ρ).a (s.ports ρ).b

theorem prepare_does {s : State} (hs : s.InputsOk) :
    Build.Does (prepare s.inputs s.width) s.factory (3 * s.width) (5 * s.width + 2) fun x f' =>
      ∃ as bs k ci, Prepared s x f' as bs k ci := by
  obtain ⟨⟨_, ha, hb, hc, hi⟩, _⟩ := (inputsOk_iff s).mp hs
  refine Build.Does.weaken
    (na := 0 + (0 + (0 + (0 + (2 * s.width + (s.width + 0))))))
    (nx := 0 + (0 + (0 + (0 + (4 * s.width + (s.width + 2 + 0)))))) ?_ (by omega) (by omega)
    (fun _ _ _ h => h)
  refine Build.Does.bind (read_does ha (Factory.Extends.rfl' _)) fun a f1 e1 h1 => ?_
  obtain ⟨as, hda, hla, hva⟩ := h1
  refine Build.Does.bind (read_does hb e1) fun b f2 e2 h2 => ?_
  obtain ⟨bs, hdb, hlb, hvb⟩ := h2
  refine Build.Does.bind (readBit_does hc (e1.trans e2)) fun c f3 e3 h3 => ?_
  refine Build.Does.bind (readBit_does hi ((e1.trans e2).trans e3)) fun ci f4 e4 h4 => ?_
  have e24 := (e2.trans e3).trans e4
  have hda4 := denotesWord_extends hda e24
  have hdb4 := denotesWord_extends hdb (e3.trans e4)
  have hsub := subNet_does hda4 hdb4 (hla.trans hlb.symm)
  rw [hla] at hsub
  refine Build.Does.bind hsub fun dn f5 e5 h5 => ?_
  have hcarry : ∀ {f}, f5.Extends f → Wires.Carry ⟨a, b, c, ci, dn.1, dn.2⟩ f s.width as bs
      (fun ρ => s.inputs.ctrl.bit s.factory ρ 1) (fun ρ => s.inputs.cin.bit s.factory ρ 1) := fun e => by
    refine ⟨denotesWord_extends hda4 (e5.trans e), denotesWord_extends hdb4 (e5.trans e),
      h3.extends ((e4.trans e5).trans e), h4.extends (e5.trans e), hla, hlb, ?_⟩
    obtain ⟨ss, co, hs', hco, hl, hv⟩ := h5
    exact ⟨ss, co, denotesWord_extends hs' e, hco.extends e, hl, hv⟩
  obtain ⟨ds, nb, hds, -, hdl, hdv⟩ := sub_isResult (hcarry (Factory.Extends.rfl' f5))
  have hflags := compareFlags_does hds (hdl ▸ s.width_pos)
  rw [hdl] at hflags
  refine Build.Does.bind hflags fun fl f6 e6 h6 => ?_
  have hd : ∀ ρ, wordOf s.width (valuesAt ds ρ) = Functional.difference (s.ports ρ).a (s.ports ρ).b := fun ρ => by
    have := congrArg Prod.fst (hdv ρ)
    simp only [hva ρ, hvb ρ] at this
    rw [← sub_eq_difference]
    exact this
  have h1 : ∀ ρ, (valuesAt ds ρ).getLastD false = Functional.lt (s.ports ρ).a (s.ports ρ).b := fun ρ => by
    rw [Functional.lt, ← hd ρ, wordOf_getLsbD (by simp [hdl]), getLastD_eq, valuesAt_length, hdl]
  have h2 : ∀ ρ, ((valuesAt ds ρ).all fun b => !b) = Functional.eq (s.ports ρ).a (s.ports ρ).b := fun ρ => by
    rw [Functional.eq, ← hd ρ, wordOf_toNat (by simp [hdl]), Bool.eq_iff_iff, ← uval_eq_zero]
    simp
  refine Build.Does.ret ⟨as, bs, _, _, hcarry e6, fun ρ => ?_, ?_, ?_, ?_⟩
  · simp only [portsAt, State.ports, hva ρ, hvb ρ]
  · exact ⟨h6.1.1, fun ρ => (h6.1.2 ρ).trans (h1 ρ)⟩
  · exact ⟨h6.2.1.1, fun ρ => (h6.2.1.2 ρ).trans (h2 ρ)⟩
  · exact ⟨h6.2.2.1, fun ρ => (h6.2.2.2 ρ).trans (by beta_reduce; rw [h1 ρ, h2 ρ]; rfl)⟩

/-- The outputs of an evaluation whose operation drives `g`: width, owner and values. -/
structure Outputs.Are (o : Outputs) (s : State) (f : Factory)
    (g : Functional.Ports s.width → BitVec s.width × Bool × Bool) : Prop where
  fits : o.fits s.width f = true
  values : ∀ ρ, o.values s.width f ρ =
    { r := (g (s.ports ρ)).1, cout := (g (s.ports ρ)).2.1, ill := (g (s.ports ρ)).2.2
      lt := Functional.lt (s.ports ρ).a (s.ports ρ).b, eq := Functional.eq (s.ports ρ).a (s.ports ρ).b
      gt := Functional.gt (s.ports ρ).a (s.ports ρ).b }

/-- From prepared wires, the operation's outputs and the flags. `R` is any fact about what the operation drives that more
cells do not change. -/
theorem finish_does {s : State} {label : Option Nat} {x : Wires × Flags} {f : Factory} {as bs : List Den} {k ci : Den}
    {operation : Wires → Build Driven} {na nx : Nat}
    {g : Functional.Ports s.width → BitVec s.width × Bool × Bool} {R : Driven → Factory → Prop}
    (hR : ∀ {d f f'}, f.Extends f' → R d f → R d f') (hp : Prepared s x f as bs k ci)
    (hop : Build.Does (operation x.1) f na nx fun d f' => IsDriven f' d s.width (fun ρ => g (s.ports ρ)) ∧ R d f') :
    Build.Does (finish label operation x) f na nx fun o f' =>
      o.Are s f' g ∧ o.reading = none ∧ R ⟨o.r, o.cout, o.ill⟩ f' := by
  refine Build.Does.bind (na' := 0) (nx' := 0) hop fun d f7 e7 h7 => ?_
  obtain ⟨⟨rs, co, il, hr, hco, hil, hrl, hrv⟩, hRd⟩ := h7
  have hlt := hp.lt.extends e7
  have heq := hp.eq.extends e7
  have hgt := hp.gt.extends e7
  have hfits : (⟨d.r, d.cout, x.2.lt, x.2.eq, x.2.gt, d.ill, none⟩ : Outputs).fits s.width f7 = true := by
    simp [Outputs.fits, hr.length_eq, hrl, hco.1, hlt.1, heq.1, hgt.1, hil.1]
    exact List.all_eq_true.mp (denotesWord_owns hr)
  refine Build.Does.bind (na := 0) (na' := 0) (nx := 0) (nx' := 0) (nameOutputs_does label hfits) fun _ f8 e8 _ => ?_
  refine Build.Does.ret ⟨⟨fits_extends hfits e8, fun ρ => ?_⟩, rfl, hR e8 hRd⟩
  have hg := hrv ρ
  simp only [Outputs.values, wordBits_of_denotes (denotesWord_extends hr e8) ρ, (hco.extends e8).2 ρ,
    (hil.extends e8).2 ρ, (hlt.extends e8).2 ρ, (heq.extends e8).2 ρ, (hgt.extends e8).2 ρ, ← hg]

/-- One evaluation (R24, R43, R67), for an operation whose netlist is known on every wires that carry the ports: the flags
are those of `compare(a, b)`, `r`, `cout` and `ill` those of the operation, and the cost is the comparator's with the one
subtractor beside the operation's. -/
theorem evaluation_does {s : State} (hs : s.InputsOk) {operation : Wires → Build Driven} {na nx : Nat}
    {g : Functional.Ports s.width → BitVec s.width × Bool × Bool} {R : Driven → Factory → Prop}
    (hR : ∀ {d f f'}, f.Extends f' → R d f → R d f')
    (hop : ∀ (w : Wires) (f : Factory) (as bs : List Den) (k ci : Den),
      w.Carry f s.width as bs k ci → (∀ ρ, (portsAt s.width as bs k ci ρ) = { s.ports ρ with op := 0 }) →
      Build.Does (operation w) f na nx fun d f' => IsDriven f' d s.width (fun ρ => g (s.ports ρ)) ∧ R d f') :
    Build.Does (evaluation s.inputs s.width operation) s.factory (3 * s.width + na) (5 * s.width + 2 + nx) fun o f' =>
      o.Are s f' g ∧ o.reading = none ∧ R ⟨o.r, o.cout, o.ill⟩ f' :=
  Build.Does.bind (prepare_does hs) fun _ _ _ ⟨_, _, _, _, hp⟩ => finish_does hR hp (hop _ _ _ _ _ _ hp.carry hp.ports)

end Sys2Proof.Machine
end

