-- ==== Sys2Proof/Laws/SymbolicOp.lean ====
section
/-! SUPPORT. The MUX tree of a symbolic `op` chooses the outputs of the code that `op` holds (spec/30 R69). -/

namespace Sys2Proof.Machine

/-- The AND calls of an operation's netlist beyond the comparator with its subtractor. -/
def netAnd (i : Instr) (W : Nat) : Nat :=
  match i with
  | .add => 2 * W - 1
  | .sub | .cmp => 0
  | .sel => W
  | .shl | .shr | .sar | .rol | .ror | .rcl | .rcr => 0
  | .bshl | .bshr | .bsar | .brol | .bror => W * W

/-- The XOR calls of an operation's netlist beyond the comparator with its subtractor. -/
def netXor (i : Instr) (W : Nat) : Nat :=
  match i with
  | .add => 3 * W - 2
  | .sub | .cmp => 0
  | .sel => 2 * W
  | .shl | .shr | .sar | .rol | .ror | .rcl | .rcr => 0
  | .bshl | .bshr | .bsar | .brol | .bror => 2 * (W * W)

theorem evaluationAnd_eq (i : Instr) (W : Nat) : evaluationAnd i W = 3 * W + netAnd i W := by cases i <;> rfl

theorem evaluationXor_eq (i : Instr) (W : Nat) : evaluationXor i W = 5 * W + 2 + netXor i W := by cases i <;> rfl

/-- Every operation's netlist computes its rule, at the cost of R212. -/
theorem netOf_does (i : Instr) {w : Wires} {f : Factory} {W : Nat} {as bs : List Den} {k ci : Den} (hW : 1 ≤ W)
    (h : w.Carry f W as bs k ci) :
    Build.Does (netOf i w) f (netAnd i W) (netXor i W) (fun r f' =>
      IsResult f' r W fun ρ => Functional.result i (portsAt W as bs k ci ρ)) := by
  cases i
  case add => exact netAdd_does hW h
  case sub => exact netSub_does h
  case cmp => exact netCmp_does h
  case sel => exact netSel_does h
  case shl => exact netShl_does hW h
  case shr => exact netShr_does hW h
  case sar => exact netSar_does hW h
  case rol => exact netRol_does hW h
  case ror => exact netRor_does hW h
  case rcl => exact netRcl_does hW h
  case rcr => exact netRcr_does hW h
  case bshl => exact netBshl_does h
  case bshr => exact netBshr_does h
  case bsar => exact netBsar_does hW h
  case brol => exact netBrol_does hW h
  case bror => exact netBror_does hW h

/-- `Does` with costs that are not said. -/
def Build.Goes {α : Type} (m : Build α) (f : Factory) (Q : α → Factory → Prop) : Prop :=
  ∃ na nx, Build.Does m f na nx Q

theorem Build.Goes.bind {α β : Type} {m : Build α} {k : α → Build β} {f : Factory} {Q : α → Factory → Prop}
    {R : β → Factory → Prop} (hw : f.wellBuilt = true) (hm : Build.Goes m f Q)
    (hk : ∀ a f', f'.wellBuilt = true → f.Extends f' → Q a f' → Build.Goes (k a) f' R) : Build.Goes (m >>= k) f R := by
  obtain ⟨na, nx, hm⟩ := hm
  obtain ⟨a, f', e, hf', hx, ca, cx, hQ⟩ := hm hw
  obtain ⟨na', nx', hk⟩ := hk a f' hf' hx hQ
  obtain ⟨b, f'', e', hf'', hx', ca', cx', hR⟩ := hk hf'
  refine ⟨na + na', nx + nx', fun _ => ⟨b, f'', ?_, hf'', hx.trans hx', by omega, by omega, hR⟩⟩
  show StateT.bind m k f = _
  simp only [StateT.bind, e]
  exact e'

theorem Build.Goes.ret {α : Type} {f : Factory} {a : α} {Q : α → Factory → Prop} (h : Q a f) :
    Build.Goes (pure a) f Q := ⟨0, 0, Build.Does.ret h⟩

/-- What a code drives (R67), as `r`, `cout`, `ill`. -/
def drivenOf {W : Nat} (p : Functional.Ports W) : BitVec W × Bool × Bool :=
  ((Functional.outputs p).r, (Functional.outputs p).cout, (Functional.outputs p).ill)

theorem drivenOf_ok {W : Nat} {p : Functional.Ports W} {i : Instr} (h : decode p.op = .ok i) :
    drivenOf p = ((Functional.result i p).1, (Functional.result i p).2, false) := by
  simp [drivenOf, Functional.outputs, h, Functional.instrOutputs]

theorem drivenOf_error {W : Nat} {p : Functional.Ports W} {e : DecodeError} (h : decode p.op = .error e) :
    drivenOf p = (0, false, true) := by
  simp [drivenOf, Functional.outputs, h, Functional.illegalOutputs]

theorem result_op {W : Nat} (i : Instr) (p : Functional.Ports W) (c : BitVec 5) :
    Functional.result i { p with op := c } = Functional.result i p := by cases i <;> rfl

theorem netOfCode_goes (code : BitVec 5) {w : Wires} {f : Factory} {W : Nat} {as bs : List Den} {k ci : Den}
    (hW : 1 ≤ W) (h : w.Carry f W as bs k ci) :
    Build.Goes (netOfCode W code w) f (fun d f' =>
      IsDriven f' d W fun ρ => drivenOf { portsAt W as bs k ci ρ with op := code }) := by
  cases hc : decode code with
  | ok i =>
    simp only [netOfCode, hc]
    refine ⟨_, _, (legal_does (netOf_does i hW h)).weaken rfl rfl fun d f' _ hd => ?_⟩
    have e : ∀ ρ, drivenOf { portsAt W as bs k ci ρ with op := code } =
        ((Functional.result i (portsAt W as bs k ci ρ)).1, (Functional.result i (portsAt W as bs k ci ρ)).2, false) :=
      fun ρ => by rw [drivenOf_ok (i := i) hc, result_op]
    simpa only [e] using hd
  | error er =>
    simp only [netOfCode, hc]
    refine ⟨_, _, (illegalNet_does W w f).weaken rfl rfl fun d f' _ hd => ?_⟩
    have e : ∀ ρ, drivenOf { portsAt W as bs k ci ρ with op := code } = (0, false, true) :=
      fun ρ => drivenOf_error (e := er) hc
    simpa only [e] using hd.1

/-- A bundle holds `r`, `cout`, `ill` with the values `g`. -/
def IsBundle (W : Nat) (g : Assignment → BitVec W × Bool × Bool) (vs : List Den) : Prop :=
  ∃ rs co il, vs = rs ++ [co, il] ∧ rs.length = W ∧ ∀ ρ, (wordOf W (valuesAt rs ρ), co ρ, il ρ) = g ρ

theorem carry_extends {w : Wires} {f f' : Factory} {W : Nat} {as bs : List Den} {k ci : Den}
    (h : w.Carry f W as bs k ci) (e : f.Extends f') : w.Carry f' W as bs k ci := by
  obtain ⟨ss, co, hs, hco, hl, hv⟩ := h.sub
  exact ⟨denotesWord_extends h.a e, denotesWord_extends h.b e, h.ctrl.extends e, h.cin.extends e, h.lenA, h.lenB,
    ⟨ss, co, denotesWord_extends hs e, hco.extends e, hl, hv⟩⟩

theorem denotesWords_extends {f f' : Factory} {ws : List Word} {wss : List (List Den)}
    (h : List.Forall₂ f.DenotesWord ws wss) (e : f.Extends f') : List.Forall₂ f'.DenotesWord ws wss :=
  List.Forall₂.imp (fun _ _ hx => denotesWord_extends hx e) h

theorem bundlesFrom_goes {w : Wires} {f : Factory} {W : Nat} {as bs : List Den} {k ci : Den} (n c : Nat)
    (hW : 1 ≤ W) (hf : f.wellBuilt = true) (h : w.Carry f W as bs k ci) :
    Build.Goes (bundlesFrom W w n c) f (fun ws f' => ∃ wss, List.Forall₂ f'.DenotesWord ws wss ∧ wss.length = n ∧
      ∀ j, j < n → IsBundle W (fun ρ => drivenOf { portsAt W as bs k ci ρ with op := BitVec.ofNat 5 (c + j) })
        (wss.getD j [])) := by
  induction n generalizing f c with
  | zero => exact Build.Goes.ret ⟨[], .nil, rfl, fun j hj => absurd hj (Nat.not_lt_zero j)⟩
  | succ n ih =>
    refine Build.Goes.bind hf (netOfCode_goes (BitVec.ofNat 5 c) hW h) fun d f1 hf1 e1 h1 => ?_
    obtain ⟨rs, co, il, hr, hco, hil, hrl, hv⟩ := h1
    refine Build.Goes.bind hf1 (ih (c + 1) hf1 (carry_extends h e1)) fun rest f2 hf2 e2 h2 => ?_
    obtain ⟨wss, hws, hwl, hb⟩ := h2
    have hd : f2.DenotesWord d.bundle (rs ++ [co, il]) :=
      List.rel_append (denotesWord_extends hr e2) (.cons (hco.extends e2) (.cons (hil.extends e2) .nil))
    refine Build.Goes.ret ⟨(rs ++ [co, il]) :: wss, .cons hd hws, by simp [hwl], fun j hj => ?_⟩
    cases j with
    | zero => exact ⟨rs, co, il, rfl, hrl, hv⟩
    | succ j =>
      have := hb j (by omega)
      simpa [Nat.add_assoc, Nat.add_comm 1] using this

/-- The values after one level of choice. -/
def levelDen (k : Den) : List (List Den) → List (List Den)
  | w0 :: w1 :: rest => choice k w1 w0 :: levelDen k rest
  | [w] => [w]
  | [] => []

theorem levelDen_spec (k : Den) (N m : Nat) (wss : List (List Den)) (hl : wss.length = 2 * m)
    (hN : ∀ vs ∈ wss, vs.length = N) :
    (levelDen k wss).length = m ∧ (∀ vs ∈ levelDen k wss, vs.length = N) ∧
      ∀ ρ j, j < m → valuesAt ((levelDen k wss).getD j []) ρ = valuesAt (wss.getD (2 * j + (k ρ).toNat) []) ρ := by
  induction m generalizing wss with
  | zero =>
    have : wss = [] := List.length_eq_zero_iff.mp (by simpa using hl)
    subst this
    exact ⟨rfl, by simp [levelDen], fun ρ j hj => absurd hj (Nat.not_lt_zero j)⟩
  | succ m ih =>
    match wss, hl with
    | w0 :: w1 :: rest, hl =>
      have h0 := hN w0 (by simp)
      have h1 := hN w1 (by simp)
      obtain ⟨i1, i2, i3⟩ := ih rest (by simp at hl; omega) (fun vs hv => hN vs (by simp [hv]))
      refine ⟨by simp [levelDen, i1], ?_, ?_⟩
      · intro vs hv
        simp only [levelDen, List.mem_cons] at hv
        rcases hv with rfl | hv
        · rw [choice_length k (h1.trans h0.symm), h1]
        · exact i2 vs hv
      · intro ρ j hj
        cases j with
        | zero =>
          simp only [levelDen, List.getD_cons_zero, choice_valuesAt k (h1.trans h0.symm)]
          cases k ρ <;> rfl
        | succ j =>
          have := i3 ρ j (by omega)
          simp only [levelDen, List.getD_cons_succ, this]
          rw [show 2 * (j + 1) + (k ρ).toNat = (2 * j + (k ρ).toNat) + 1 + 1 by omega, List.getD_cons_succ,
            List.getD_cons_succ]
    | [_], hl => simp at hl; omega
    | [], hl => simp at hl

theorem chooseLevel_goes {f : Factory} {x : Bit} {k : Den} {ws : List Word} {wss : List (List Den)} {N : Nat}
    (hf : f.wellBuilt = true) (hx : f.Denotes x k) (hws : List.Forall₂ f.DenotesWord ws wss)
    (hN : ∀ vs ∈ wss, vs.length = N) :
    Build.Goes (chooseLevel x ws) f (fun r f' => List.Forall₂ f'.DenotesWord r (levelDen k wss)) := by
  match ws, wss, hws with
  | [], _, .nil => exact Build.Goes.ret .nil
  | [_], _, .cons h .nil => exact Build.Goes.ret (.cons h .nil)
  | w0 :: w1 :: rest, v0 :: v1 :: vrest, .cons h0 (.cons h1 hrest) =>
    have l0 := hN v0 (by simp)
    have l1 := hN v1 (by simp)
    refine Build.Goes.bind hf ⟨_, _, muxWord_does hx h1 h0 (l1.trans l0.symm)⟩ fun w f1 hf1 e1 h1 => ?_
    refine Build.Goes.bind hf1 (chooseLevel_goes hf1 (hx.extends e1) (denotesWords_extends hrest e1)
      (fun vs hv => hN vs (by simp [hv]))) fun r f2 hf2 e2 h2 => ?_
    exact Build.Goes.ret (.cons (denotesWord_extends h1 e2) h2)

theorem chooseTree_goes {f : Factory} {xs : Word} {ks : List Den} {ws : List Word} {wss : List (List Den)} {N : Nat}
    (hf : f.wellBuilt = true) (hx : f.DenotesWord xs ks) (hws : List.Forall₂ f.DenotesWord ws wss)
    (hl : wss.length = 2 ^ ks.length) (hN : ∀ vs ∈ wss, vs.length = N) :
    Build.Goes (chooseTree xs ws) f (fun r f' => ∃ w vs, r = [w] ∧ f'.DenotesWord w vs ∧ vs.length = N ∧
      ∀ ρ, valuesAt vs ρ = valuesAt (wss.getD (uval (valuesAt ks ρ)) []) ρ) := by
  induction xs generalizing f ks ws wss with
  | nil =>
    cases hx
    match ws, wss, hws, hl with
    | [w], [vs], .cons h .nil, _ =>
      exact Build.Goes.ret ⟨w, vs, rfl, h, hN vs (by simp), fun ρ => by simp [uval]⟩
    | _ :: _ :: _, _ :: _ :: _, _, hl => simp at hl
    | [], [], _, hl => simp at hl
  | cons x xs ih =>
    cases hx with
    | @cons _ k _ ks hx hxs =>
    obtain ⟨i1, i2, i3⟩ := levelDen_spec k N (2 ^ ks.length) wss (by simpa [Nat.pow_succ, Nat.mul_comm] using hl) hN
    refine Build.Goes.bind hf (chooseLevel_goes hf hx hws hN) fun ws' f1 hf1 e1 h1 => ?_
    obtain ⟨na, nx, hd⟩ := ih hf1 (denotesWord_extends hxs e1) h1 i1 i2
    refine ⟨na, nx, hd.weaken rfl rfl fun r f2 _ h => ?_⟩
    obtain ⟨w, vs, hr, hw, hvl, hv⟩ := h
    refine ⟨w, vs, hr, hw, hvl, fun ρ => ?_⟩
    have hlt : uval (valuesAt ks ρ) < 2 ^ ks.length := by simpa using uval_lt (valuesAt ks ρ)
    rw [hv ρ, i3 ρ _ hlt, valuesAt_cons, uval, Nat.add_comm]

theorem forall₂_split {f : Factory} {w : Word} {rs : List Den} {co il : Den}
    (h : f.DenotesWord w (rs ++ [co, il])) :
    ∃ c i, w.drop rs.length = [c, i] ∧ f.DenotesWord (w.take rs.length) rs ∧ f.Denotes c co ∧ f.Denotes i il := by
  have h1 := List.forall₂_drop rs.length h
  have h2 := List.forall₂_take rs.length h
  rw [List.drop_left] at h1
  rw [List.take_left] at h2
  generalize w.drop rs.length = t at h1
  cases h1 with
  | cons hc h1 =>
  cases h1 with
  | cons hi h1 =>
  cases h1
  exact ⟨_, _, rfl, h2, hc, hi⟩

/-- The netlist of a symbolic `op` drives what the code on `op` drives. -/
theorem symbolicNet_goes {op : Drive} {f0 f : Factory} {w : Wires} {V W : Nat} {as bs : List Den} {k ci : Den} (hW : 1 ≤ W)
    (hf : f.wellBuilt = true) (hop : op.Ok f0 V 5) (e : f0.Extends f) (h : w.Carry f W as bs k ci) :
    Build.Goes (symbolicNet op W w) f (fun d f' => IsDriven f' d W fun ρ =>
      drivenOf { portsAt W as bs k ci ρ with op := wordOf 5 (op.bits f0 ρ 5) }) := by
  refine Build.Goes.bind hf ⟨_, _, read_does hop e⟩ fun x f1 hf1 e1 h1 => ?_
  obtain ⟨ks, hks, hkl, hkv⟩ := h1
  refine Build.Goes.bind hf1 (bundlesFrom_goes 32 0 hW hf1 (carry_extends h e1)) fun ws f2 hf2 e2 h2 => ?_
  obtain ⟨wss, hws, hwl, hb⟩ := h2
  have hN : ∀ vs ∈ wss, vs.length = W + 2 := by
    intro vs hv
    obtain ⟨j, hj, rfl⟩ := List.getElem_of_mem hv
    obtain ⟨rs, co, il, he, hl, _⟩ := hb j (by omega)
    rw [List.getD_eq_getElem?_getD, List.getElem?_eq_getElem hj, Option.getD_some] at he
    rw [he]; simp [hl]
  refine Build.Goes.bind hf2 (chooseTree_goes hf2 (denotesWord_extends hks e2) hws (by rw [hwl, hkl]; rfl) hN)
    fun ch f3 hf3 e3 h3 => ?_
  obtain ⟨bits, vs, rfl, hbits, hvl, hv⟩ := h3
  have hsplit : vs = vs.take W ++ [vs.getD W (fun _ => false), vs.getD (W + 1) (fun _ => false)] := by
    refine List.ext_getElem (by simp [hvl]) fun i h1 h2 => ?_
    by_cases hi : i < W
    · rw [List.getElem_append_left (by simp [hvl, hi])]; simp
    · have : i = W ∨ i = W + 1 := by omega
      rcases this with rfl | rfl
      · rw [List.getElem_append_right (by simp [hvl])]
        simp [hvl, List.getD_eq_getElem?_getD]
      · rw [List.getElem_append_right (by simp [hvl])]
        simp [hvl, List.getD_eq_getElem?_getD]
  have htl : (vs.take W).length = W := by simp [hvl]
  have hbits' := hbits
  rw [hsplit] at hbits'
  obtain ⟨c, i, hd, ht, hc, hi⟩ := forall₂_split hbits'
  rw [htl] at hd ht
  simp only [hd]
  refine Build.Goes.ret ⟨_, _, _, ht, hc, hi, htl, fun ρ => ?_⟩
  have hu : uval (valuesAt ks ρ) < 32 := by
    have := uval_lt (valuesAt ks ρ)
    simpa [hkl] using this
  obtain ⟨rs, co, il, he, hrl, hg⟩ := hb _ hu
  have hval := hv ρ
  rw [he, hsplit] at hval
  simp only [valuesAt, List.map_append] at hval
  have hval := List.append_inj hval (by simp [hvl, hrl])
  have hgo := hg ρ
  rw [Nat.zero_add, hkv ρ] at hgo
  refine Eq.trans ?_ hgo
  have h2 := hval.2
  simp only [List.map_cons, List.map_nil, List.cons.injEq, and_true] at h2
  simp only [valuesAt, hval.1, h2.1, h2.2]

end Sys2Proof.Machine
end

