-- ==== Sys2Proof/Laws/Step.lean ====
section
/-! SUPPORT. Once for each shared operation of a step: everything it can do. -/

namespace Sys2Proof.Machine

theorem runNetlist_refused {s : State} {r : Refusal} (h : s.inputError = some r) (operation : Wires → Build Driven) :
    s.runNetlist operation = .error r := by simp [State.runNetlist, h]

theorem evaluate_refused {s : State} {r : Refusal} (h : s.inputError = some r) (operation : Wires → Build Driven) :
    evaluate operation s = .refused r := by simp [evaluate, runNetlist_refused h]

theorem takeIllegalOp_refused {s : State} {r : Refusal} (h : s.inputError = some r) (code : BitVec 5) :
    takeIllegalOp code s = .refused r := by simp [takeIllegalOp, runNetlist_refused h]

theorem evaluateSymbolicOp_refused {s : State} {r : Refusal} (h : s.inputError = some r) :
    evaluateSymbolicOp s = .refused r := by simp [evaluateSymbolicOp, runNetlist_refused h]

/-- `exec` is one evaluation with the instruction's netlist. -/
theorem exec_eq (i : Instr) (s : State) : exec i s = evaluate (legal (netOf i)) s := by cases i <;> rfl

theorem extractWord_ok {f : Factory} (hr : f.realization = .concrete) {w : Word} (h : w.all f.ownsBit = true)
    (ρ : Assignment) : extractWord w = .ok (uval (f.wordBits ρ w)) := by
  induction w with
  | nil => rfl
  | cons x xs ih =>
    simp only [List.all_cons, Bool.and_eq_true] at h
    rcases ownsBit_cases h.1 with ⟨_, v, rfl⟩ | ⟨hr', _⟩
    · simp only [extractWord, ih h.2, extractBit]
      rfl
    · rw [hr] at hr'; cases hr'

theorem port_owns {o : Outputs} {W : Nat} {f : Factory} (h : o.fits W f = true) (p : OutPort) :
    (o.port p).all f.ownsBit = true := by
  simp only [Outputs.fits, Bool.and_eq_true] at h
  obtain ⟨⟨⟨⟨⟨⟨_, h1⟩, h2⟩, h3⟩, h4⟩, h5⟩, h6⟩ := h
  cases p <;> simp [Outputs.port, *]

theorem readOut_ok {o : Outputs} {W : Nat} {f : Factory} (h : o.fits W f = true) {port : Option OutPort}
    (hr : ¬ (port.isSome ∧ f.realization = .circuit)) (ρ : Assignment) :
    o.readOut port = .ok (port.map fun p => uval (f.wordBits ρ (o.port p))) := by
  cases port with
  | none => rfl
  | some p =>
    have hc : f.realization = .concrete := by
      cases hf : f.realization with
      | concrete => rfl
      | circuit => exact absurd ⟨rfl, hf⟩ hr
    simp only [Outputs.readOut, extractWord_ok hc (port_owns h p) ρ]
    rfl

/-- What `evaluate` does for an instruction's netlist when nothing is refused. -/
theorem evaluate_next {s : State} (hf : s.factory.wellBuilt = true) (hs : s.InputsOk) (i : Instr) :
    ∃ o f, evaluate (legal (netOf i)) s = .next { s with factory := f, outputs := some o } ∧
      f.wellBuilt = true ∧ s.factory.Extends f ∧
      f.andCount = s.factory.andCount + evaluationAnd i s.width ∧
      f.xorCount = s.factory.xorCount + evaluationXor i s.width ∧
      o.Are s f (fun p => ((Functional.result i p).1, (Functional.result i p).2, false)) ∧
      ∀ ρ, o.reading = s.inputs.readOut.map fun p => uval (f.wordBits ρ (o.port p)) := by
  have hd := evaluation_does hs (na := netAnd i s.width) (nx := netXor i s.width) (operation := legal (netOf i))
    (g := fun p => ((Functional.result i p).1, (Functional.result i p).2, false)) (R := fun _ _ => True)
    (fun _ h => h) (fun w f as bs k ci h hp => by
      refine (legal_does (netOf_does i s.width_pos h)).weaken rfl rfl fun d f' _ hd => ⟨?_, trivial⟩
      simpa only [hp, result_op] using hd)
  obtain ⟨o, f, he, hw, hx, ca, cx, ha, hread, -⟩ := hd hf
  have hro : ∀ ρ, o.readOut s.inputs.readOut = .ok (s.inputs.readOut.map fun p => uval (f.wordBits ρ (o.port p))) :=
    fun ρ => readOut_ok ha.fits (by rw [hx.realization]; exact ((inputsOk_iff s).mp hs).2) ρ
  refine ⟨{ o with reading := s.inputs.readOut.map fun p => uval (f.wordBits (fun _ => false) (o.port p)) }, f, ?_, hw, hx,
    by rw [ca, evaluationAnd_eq], by rw [cx, evaluationXor_eq], ⟨by simpa [Outputs.fits] using ha.fits, ha.values⟩, fun ρ => ?_⟩
  · have hr : s.runNetlist (legal (netOf i)) = .ok (o, f) := by
      simp only [State.runNetlist, show s.inputError = none from hs]
      exact he
    simp only [evaluate, hr, hro fun _ => false]
  · have h1 := (hro ρ).symm.trans (hro fun _ => false)
    have h2 := (Except.ok.inj h1).symm
    exact h2

/-- What taking IllegalOp does when nothing is refused. -/
theorem takeIllegalOp_next {s : State} (hf : s.factory.wellBuilt = true) (hs : s.InputsOk) (code : BitVec 5) :
    ∃ o f, takeIllegalOp code s = .next { s with factory := f, outputs := some o, illegal := some code } ∧
      f.wellBuilt = true ∧ s.factory.Extends f ∧
      f.andCount = s.factory.andCount + comparatorAnd s.width ∧
      f.xorCount = s.factory.xorCount + comparatorXor s.width ∧
      o.Are s f (fun _ => (0, false, true)) ∧ o.showIllegal f = true ∧ o.reading = none := by
  have hd := evaluation_does hs (na := 0) (nx := 0) (operation := illegalNet s.width)
    (g := fun _ => (0, false, true)) (R := ShowsIllegal) (fun e h => showsIllegal_extends e h)
    (fun w f as bs k ci h hp => illegalNet_does s.width w f)
  obtain ⟨o, f, he, hw, hx, ca, cx, ha, hread, hR⟩ := hd hf
  have hr : s.runNetlist (illegalNet s.width) = .ok (o, f) := by
    simp only [State.runNetlist, show s.inputError = none from hs]
    exact he
  refine ⟨o, f, by simp only [takeIllegalOp, hr], hw, hx, by rw [ca]; rfl, by rw [cx]; rfl, ha, ?_, hread⟩
  simp only [Outputs.showIllegal, Bool.and_eq_true, beq_iff_eq, List.all_eq_true]
  exact ⟨⟨hR.1, hR.2.1⟩, hR.2.2⟩

/-- What an evaluation with a symbolic `op` does when nothing is refused. -/
theorem evaluateSymbolicOp_next {s : State} (hf : s.factory.wellBuilt = true) (hs : s.InputsOk) :
    ∃ o f, evaluateSymbolicOp s =
        .next { s with
          factory := s.freeCounts f
          outputs := some o
          illegalIf := s.illegalIf ++ [{ op := s.inputs.op, ill := o.ill }]
          freeIndex := s.freeIndex + 1 } ∧
      f.wellBuilt = true ∧ s.factory.Extends f ∧ o.Are s f drivenOf ∧ o.reading = none := by
  have hop : s.inputs.op.Ok s.factory s.width 5 := ((inputsOk_iff s).mp hs).1.1
  obtain ⟨na, nx, hd⟩ : Build.Goes (evaluation s.inputs s.width (symbolicNet s.inputs.op s.width)) s.factory
      fun o f' => o.Are s f' drivenOf ∧ o.reading = none ∧ True := by
    refine Build.Goes.bind hf ⟨_, _, prepare_does hs⟩ fun x f1 hf1 e1 ⟨as, bs, k, ci, hp⟩ => ?_
    obtain ⟨na, nx, h⟩ := symbolicNet_goes s.width_pos hf1 hop e1 hp.carry
    refine ⟨na, nx, finish_does (R := fun _ _ => True) (fun _ h => h) hp (h.weaken rfl rfl fun d f' _ hd => ⟨?_, trivial⟩)⟩
    simp only [hp.ports] at hd
    exact hd
  obtain ⟨o, f, he, hw, hx, -, -, ha, hread, -⟩ := hd hf
  have hr : s.runNetlist (symbolicNet s.inputs.op s.width) = .ok (o, f) := by
    simp only [State.runNetlist, show s.inputError = none from hs]
    exact he
  exact ⟨o, f, by simp only [evaluateSymbolicOp, hr], hw, hx, ha, hread⟩

theorem uval_codeOfBits (bs : List Bool) : codeOfBits bs = uval bs := by
  induction bs with
  | nil => rfl
  | cons b bs ih => simp [codeOfBits, uval, ih]

theorem constValue_bitValue {f : Factory} (hf : f.wellBuilt = true) {x : Bit} {v : Bool}
    (h : f.constValue x = some v) (ρ : Assignment) : f.bitValue ρ x = v := by
  cases x with
  | concrete u => simpa [Factory.constValue, Factory.bitValue] using h
  | symbolic n =>
    cases hn : f.graph[n]? with
    | none => simp [Factory.constValue, hn] at h
    | some nd =>
      simp only [Factory.wellBuilt, Bool.and_eq_true] at hf
      have hv := value_of_node ρ hf.1 hn
      cases nd <;> simp [Factory.constValue, hn] at h
      subst h
      exact hv

theorem constValues_wordBits {f : Factory} (hf : f.wellBuilt = true) {w : Word} {vs : List Bool}
    (h : f.constValues w = some vs) (ρ : Assignment) : f.wordBits ρ w = vs := by
  induction w generalizing vs with
  | nil => simpa [Factory.constValues, Factory.wordBits, eq_comm] using h
  | cons x xs ih =>
    simp only [Factory.constValues] at h
    split at h
    · next v us h1 h2 =>
      simp only [Option.some.injEq] at h
      subst h
      rw [Factory.wordBits, List.map_cons, constValue_bitValue hf h1 ρ]
      exact congrArg _ (ih h2)
    · simp at h

/-- A constant code is the value of `op`, under every assignment. -/
theorem opCode_ports {s : State} (hf : s.factory.wellBuilt = true) {c : BitVec 5} (h : s.opCode = some c)
    (ρ : Assignment) : (s.ports ρ).op = c := by
  unfold State.opCode at h
  simp only [State.ports]
  split at h
  · next k hop =>
    rw [hop]
    split at h
    · next hk =>
      simp only [Option.some.injEq] at h
      subst h
      refine BitVec.eq_of_getLsbD_eq fun i hi => ?_
      rw [Drive.bits, wordOf_getLsbD (by simp)]
      rw [BitVec.getLsbD_ofNat]
      simp [hi, List.getD_eq_getElem?_getD]
    · simp at h
  · next w hop =>
    rw [hop]
    split at h
    · next vs hv =>
      split at h
      · simp only [Option.some.injEq] at h
        subst h
        rw [Drive.bits, constValues_wordBits hf hv, uval_codeOfBits]
        rfl
      · simp at h
    · simp at h
  all_goals simp at h

theorem decode_reserved : ∀ c : BitVec 5, c ∈ reservedCodes ↔ (decode c).toOption = none := by decide

theorem not_mem_reserved_of_decode {c : BitVec 5} {i : Instr} (h : decode c = .ok i) : c ∉ reservedCodes := by
  rw [decode_reserved, h]; simp [Except.toOption]

theorem mem_reserved_of_decode {c : BitVec 5} {e : DecodeError} (h : decode c = .error e) : c ∈ reservedCodes := by
  rw [decode_reserved, h]; rfl

/-- What a step does: a fault that was recorded, a refusal of the inputs, or one of the three kinds of evaluation. -/
theorem step_cases (s : State) :
    (∃ c, s.illegal = some c ∧ step s = .fault (.illegalOp c)) ∨
    (s.illegal = none ∧ ∃ r, s.inputError = some r ∧ step s = .refused r) ∨
    (s.illegal = none ∧ s.InputsOk ∧
      ((∃ c i, s.opCode = some c ∧ decode c = .ok i ∧ step s = evaluate (legal (netOf i)) s) ∨
       (∃ c, s.opCode = some c ∧ c ∈ reservedCodes ∧ step s = takeIllegalOp c s) ∨
       (s.opCode = none ∧ step s = evaluateSymbolicOp s))) := by
  cases hi : s.illegal with
  | some c => exact .inl ⟨c, rfl, by simp [step, hi]⟩
  | none =>
    refine .inr ?_
    cases he : s.inputError with
    | some r =>
      refine .inl ⟨rfl, r, rfl, ?_⟩
      cases hc : s.opCode with
      | none => simp only [step, hi, hc, evaluateSymbolicOp_refused he]
      | some c =>
        cases hd : decode c with
        | ok i => simp only [step, hi, hc, hd, exec_eq, evaluate_refused he]
        | error e => simp only [step, hi, hc, hd, takeIllegalOp_refused he]
    | none =>
      refine .inr ⟨rfl, he, ?_⟩
      cases hc : s.opCode with
      | none => exact .inr (.inr ⟨rfl, by simp only [step, hi, hc]⟩)
      | some c =>
        cases hd : decode c with
        | ok i => exact .inl ⟨c, i, rfl, hd, by simp only [step, hi, hc, hd, exec_eq]⟩
        | error e => exact .inr (.inl ⟨c, rfl, mem_reserved_of_decode hd, by simp only [step, hi, hc, hd]⟩)

theorem extends_freeCounts {s : State} {f : Factory} (e : s.factory.Extends f) : s.factory.Extends (s.freeCounts f) :=
  ⟨e.realization, e.reuseNodes, Nat.le_add_right _ _, Nat.le_add_right _ _, e.graph⟩

theorem are_freeCounts {s : State} {o : Outputs} {f : Factory}
    {g : Functional.Ports s.width → BitVec s.width × Bool × Bool} (h : o.Are s f g) : o.Are s (s.freeCounts f) g := by
  have hb : ∀ x, (s.freeCounts f).ownsBit x = f.ownsBit x := fun x => by cases x <;> rfl
  have hv : ∀ ρ x, (s.freeCounts f).bitValue ρ x = f.bitValue ρ x := fun ρ x => by cases x <;> rfl
  refine ⟨?_, fun ρ => ?_⟩
  · simpa only [Outputs.fits, funext hb] using h.fits
  · simpa only [Outputs.values, Factory.wordBits, funext (hv ρ)] using h.values ρ

/-- `Are` with what the code on `op` drives is the output function of R67. -/
theorem are_outputs {s : State} {o : Outputs} {f : Factory} (h : o.Are s f drivenOf) (ρ : Assignment) :
    o.values s.width f ρ = Functional.outputs (s.ports ρ) := by
  rw [h.values ρ]
  simp only [drivenOf, Functional.outputs]
  cases decode (s.ports ρ).op <;> rfl

/-- A step whose inputs are not refused: it changes the outputs and the factory, with a reserved code the record of the
fault, with a symbolic `op` the records for assignments and the index of free values, and it drives the output function. -/
theorem step_next {s : State} (hf : s.factory.wellBuilt = true) (hs : s.InputsOk) (hi : s.illegal = none) :
    ∃ o f ill xs k,
      step s = .next { s with factory := f, outputs := some o, illegal := ill, illegalIf := xs, freeIndex := k } ∧
      f.wellBuilt = true ∧ s.factory.Extends f ∧ o.Are s f drivenOf ∧
      (∀ c, ill = some c → s.opCode = some c ∧ c ∈ reservedCodes ∧ o.showIllegal f = true) ∧
      (s.opCode.isSome = true → xs = s.illegalIf ∧ k = s.freeIndex) ∧
      (s.opCode = none → ill = none ∧ xs = s.illegalIf ++ [{ op := s.inputs.op, ill := o.ill }]) := by
  rcases step_cases s with ⟨c, h, -⟩ | ⟨-, r, h, -⟩ | ⟨-, -, ⟨c, i, hc, hd, h⟩ | ⟨c, hc, hr, h⟩ | ⟨hc, h⟩⟩
  · rw [hi] at h; cases h
  · rw [show s.inputError = none from hs] at h; cases h
  · obtain ⟨o, f, he, hw, hx, -, -, ha, -⟩ := evaluate_next hf hs i
    refine ⟨o, f, none, s.illegalIf, s.freeIndex, by rw [h, he, ← hi], hw, hx, ⟨ha.fits, fun ρ => ?_⟩, by simp,
      fun _ => ⟨rfl, rfl⟩, by simp [hc]⟩
    rw [ha.values ρ, drivenOf_ok (by rw [opCode_ports hf hc ρ]; exact hd)]
  · obtain ⟨o, f, he, hw, hx, -, -, ha, hsh, -⟩ := takeIllegalOp_next hf hs c
    refine ⟨o, f, some c, s.illegalIf, s.freeIndex, by rw [h, he], hw, hx, ⟨ha.fits, fun ρ => ?_⟩, ?_,
      fun _ => ⟨rfl, rfl⟩, by simp [hc]⟩
    · cases hd : decode c with
      | ok i => exact absurd hr (not_mem_reserved_of_decode hd)
      | error e => rw [ha.values ρ, drivenOf_error (e := e) (by rw [opCode_ports hf hc ρ]; exact hd)]
    · rintro c' hc'
      cases hc'
      exact ⟨hc, hr, hsh⟩
  · obtain ⟨o, f, he, hw, hx, ha, -⟩ := evaluateSymbolicOp_next hf hs
    refine ⟨o, s.freeCounts f, none, _, s.freeIndex + 1, by rw [h, he, ← hi], ?_, extends_freeCounts hx,
      are_freeCounts ha, by simp, by simp [hc], fun _ => ⟨rfl, rfl⟩⟩
    exact wellBuilt_counts hw rfl rfl

end Sys2Proof.Machine
end

