-- ==== Sys2Proof/Laws/Assigned.lean ====
section
/-! SUPPORT. The machine under one assignment: what is driven and what is recorded keep their values as the factory grows, and
what each kind of evaluation does to the record of IllegalOp (R181). -/

namespace Sys2Proof.Machine

/-- A word of a factory keeps its values as the factory grows. -/
theorem bits_extends {d : Drive} {f f' : Factory} (hr : d.realizationOk f = true) (ha : d.acyclic f = true)
    (e : f.Extends f') (ρ : Assignment) (W : Nat) : d.bits f' ρ W = d.bits f ρ W := by
  cases d with
  | word w =>
    simp only [Drive.realizationOk, Drive.acyclic, List.all_eq_true] at hr ha
    exact List.map_congr_left fun x hx =>
      Factory.bitValue_extends e (by simp [Factory.ownsBit, hr x hx, ha x hx]) ρ
  | _ => rfl

theorem realizationOk_extends {d : Drive} {f f' : Factory} (e : f.Extends f') (h : d.realizationOk f = true) :
    d.realizationOk f' = true := by
  cases d with
  | word w => simpa [Drive.realizationOk, Factory.matchesBit, e.realization] using h
  | _ => rfl

theorem hasNode_extends {f f' : Factory} (e : f.Extends f') {x : Bit} (h : f.hasNode x = true) : f'.hasNode x = true := by
  cases x with
  | concrete v => rfl
  | symbolic n =>
    simp only [Factory.hasNode, decide_eq_true_eq] at h ⊢
    exact h.trans_le e.graph.length_le

theorem acyclic_extends {d : Drive} {f f' : Factory} (e : f.Extends f') (h : d.acyclic f = true) :
    d.acyclic f' = true := by
  cases d with
  | word w =>
    simp only [Drive.acyclic, List.all_eq_true] at h ⊢
    exact fun x hx => hasNode_extends e (h x hx)
  | _ => exact h

/-- A port that passes every check passes it on a factory that has grown. -/
theorem Drive.Ok.extends {d : Drive} {f f' : Factory} {V W : Nat} (h : d.Ok f V W) (e : f.Extends f') : d.Ok f' V W := by
  refine ⟨h.literal, h.width, realizationOk_extends e h.realization, acyclic_extends e h.acyclic, ?_, h.driven⟩
  have := h.input
  cases d <;> simp_all [Drive.inputOk, e.realization]

theorem IllegalRecord.fits_extends {x : IllegalRecord} {f f' : Factory} (e : f.Extends f') (h : x.fits f = true) :
    x.fits f' = true := by
  simp only [IllegalRecord.fits, Bool.and_eq_true, beq_iff_eq] at h ⊢
  exact ⟨⟨⟨e.realization.trans h.1.1.1, Factory.ownsBit_extends e h.1.1.2⟩, realizationOk_extends e h.1.2⟩,
    acyclic_extends e h.2⟩

/-- A record of a factory says the same under an assignment as the factory grows. -/
theorem IllegalRecord.codeUnder_extends {x : IllegalRecord} {f f' : Factory} (e : f.Extends f') (h : x.fits f = true)
    (ρ : Assignment) : x.codeUnder f' ρ = x.codeUnder f ρ := by
  simp only [IllegalRecord.fits, Bool.and_eq_true] at h
  rw [codeUnder, codeUnder, Factory.bitValue_extends e h.1.1.2, bits_extends h.1.2 h.2 e]

theorem findSome_codeUnder_extends {xs : List IllegalRecord} {f f' : Factory} (e : f.Extends f')
    (h : (xs.all fun x => x.fits f) = true) (ρ : Assignment) :
    (xs.findSome? fun x => x.codeUnder f' ρ) = xs.findSome? fun x => x.codeUnder f ρ := by
  induction xs with
  | nil => rfl
  | cons x xs ih =>
    simp only [List.all_cons, Bool.and_eq_true] at h
    simp only [List.findSome?_cons, IllegalRecord.codeUnder_extends e h.1, ih h.2]

/-- In the Concrete realization an `op` that passes the checks is constant (R69). -/
theorem opCode_concrete {s : State} (hs : s.InputsOk) (hr : s.factory.realization = .concrete) :
    s.opCode.isSome = true := by
  obtain ⟨⟨h, -⟩, -⟩ := (inputsOk_iff s).mp hs
  unfold State.opCode
  cases hop : s.inputs.op with
  | undriven => exact absurd h.driven (by simp [hop, Drive.driven])
  | inputs l => exact absurd h.input (by simp [hop, Drive.inputOk, hr])
  | output p => exact absurd h.acyclic (by simp [hop, Drive.acyclic])
  | throughLogic n p => exact absurd h.acyclic (by simp [hop, Drive.acyclic])
  | literal k =>
    have := h.literal
    simp only [hop, Drive.literalOk, decide_eq_true_eq] at this
    simp only
    rw [if_pos (by omega)]
    rfl
  | word w =>
    have hl : w.length = 5 := by simpa [hop, Drive.widthOk, Drive.width] using h.width
    have hc : ∀ x ∈ w, s.factory.matchesBit x = true := by
      simpa [hop, Drive.realizationOk] using h.realization
    obtain ⟨vs, hv, hvl⟩ : ∃ vs, s.factory.constValues w = some vs ∧ vs.length = w.length := by
      clear hl hop
      induction w with
      | nil => exact ⟨[], rfl, rfl⟩
      | cons x xs ih =>
        obtain ⟨vs, h1, h2⟩ := ih fun y hy => hc y (List.mem_cons_of_mem _ hy)
        have hx := hc x List.mem_cons_self
        cases x with
        | concrete v => exact ⟨v :: vs, by simp [Factory.constValues, Factory.constValue, h1], by simp [h2]⟩
        | symbolic n => simp [Factory.matchesBit, hr] at hx
    simp [hv, controlWordWf, hvl, hl]

/-- What a step does to the record of IllegalOp under an assignment: a fault recorded there stays, and otherwise the
evaluation records the code on `op` exactly where it is reserved (R181). -/
theorem step_illegalUnder {s t : State} (hs : s.inv = true) (h : step s = .next t) (ρ : Assignment) :
    t.illegalUnder ρ =
      (s.illegalUnder ρ).or (if (s.ports ρ).op ∈ reservedCodes then some (s.ports ρ).op else none) := by
  simp only [State.inv, Bool.and_eq_true] at hs
  obtain ⟨⟨⟨hf, -⟩, -⟩, hx⟩ := hs
  have old : ∀ {f : Factory}, s.factory.Extends f →
      (s.illegalIf.findSome? fun x => x.codeUnder f ρ) = s.illegalIf.findSome? fun x => x.codeUnder s.factory ρ :=
    fun e => findSome_codeUnder_extends e hx ρ
  rcases step_cases s with ⟨c, -, h'⟩ | ⟨-, r, -, h'⟩ | ⟨hi, hok, ⟨c, i, hc, hd, h'⟩ | ⟨c, hc, hr, h'⟩ | ⟨hc, h'⟩⟩
  · rw [h'] at h; cases h
  · rw [h'] at h; cases h
  · obtain ⟨o, f, he, -, e, -⟩ := evaluate_next hf hok i
    rw [h', he] at h; cases h
    simp only [State.illegalUnder, old e, opCode_ports hf hc ρ, if_neg (not_mem_reserved_of_decode hd), Option.or_none]
  · obtain ⟨o, f, he, -, e, -⟩ := takeIllegalOp_next hf hok c
    rw [h', he] at h; cases h
    simp only [State.illegalUnder, old e, opCode_ports hf hc ρ, if_pos hr, hi, Option.or_none]
  · obtain ⟨o, f, he, -, e, ha, -⟩ := evaluateSymbolicOp_next hf hok
    rw [h', he] at h; cases h
    have e' := extends_freeCounts e
    have ha' := are_freeCounts ha
    have hop := ((inputsOk_iff s).mp hok).1.1
    have hill : (s.freeCounts f).bitValue ρ o.ill = decide ((s.ports ρ).op ∈ reservedCodes) := by
      have := congrArg Functional.Values.ill (are_outputs ha' ρ)
      refine this.trans ?_
      simp only [Functional.outputs]
      cases hd : decode (s.ports ρ).op with
      | ok i => simp [Functional.instrOutputs, not_mem_reserved_of_decode hd]
      | error er => simp [Functional.illegalOutputs, mem_reserved_of_decode hd]
    have hnew : (⟨s.inputs.op, o.ill⟩ : IllegalRecord).codeUnder (s.freeCounts f) ρ =
        if (s.ports ρ).op ∈ reservedCodes then some (s.ports ρ).op else none := by
      simp only [IllegalRecord.codeUnder, hill, bits_extends hop.realization hop.acyclic e' ρ 5, decide_eq_true_eq]
      rfl
    simp only [State.illegalUnder, List.findSome?_append, old e', hi, Option.or_none, List.findSome?_cons,
      List.findSome?_nil, hnew]
    by_cases hr : (s.ports ρ).op ∈ reservedCodes <;> simp [hr]

end Sys2Proof.Machine
end

