-- ==== Sys2Proof/Laws/PerInstr.lean ====
section
/-! SUPPORT. The family `FieldGrid`: what the fields of R61 say of each instruction's code, one lemma an instruction. -/

namespace Sys2Proof.Laws.FieldGrid

/-- The kind and direction that R61 gives a shift or rotate: the kind field, and 1 for right. -/
def grid : Instr → Option (BitVec 2 × BitVec 1)
  | .add | .sub | .cmp | .sel => none
  | .shl | .bshl => some (0b00#2, 0b0#1)
  | .shr | .bshr => some (0b00#2, 0b1#1)
  | .sar | .bsar => some (0b01#2, 0b1#1)
  | .rol | .brol => some (0b10#2, 0b0#1)
  | .ror | .bror => some (0b10#2, 0b1#1)
  | .rcl => some (0b11#2, 0b0#1)
  | .rcr => some (0b11#2, 0b1#1)

/-- The code of an instruction is its family and function fields side by side, in an assigned family; and in families 01
and 10 the function field is the kind and the direction of R61. -/
def Statement (i : Instr) : Prop :=
  i.wf = true ∧ familyField (encode i) ++ fnField (encode i) = encode i ∧ familyField (encode i) ≠ 0b11#2 ∧
  (familyField (encode i) = 0b00#2 ↔ grid i = none) ∧
  ∀ g ∈ grid i, kindField (encode i) = g.1 ∧ dirField (encode i) = g.2 ∧ fnField (encode i) = g.1 ++ g.2

theorem add : Statement .add := by unfold Statement; decide
theorem sub : Statement .sub := by unfold Statement; decide
theorem cmp : Statement .cmp := by unfold Statement; decide
theorem sel : Statement .sel := by unfold Statement; decide
theorem shl : Statement .shl := by unfold Statement; decide
theorem shr : Statement .shr := by unfold Statement; decide
theorem sar : Statement .sar := by unfold Statement; decide
theorem rol : Statement .rol := by unfold Statement; decide
theorem ror : Statement .ror := by unfold Statement; decide
theorem rcl : Statement .rcl := by unfold Statement; decide
theorem rcr : Statement .rcr := by unfold Statement; decide
theorem bshl : Statement .bshl := by unfold Statement; decide
theorem bshr : Statement .bshr := by unfold Statement; decide
theorem bsar : Statement .bsar := by unfold Statement; decide
theorem brol : Statement .brol := by unfold Statement; decide
theorem bror : Statement .bror := by unfold Statement; decide

end Sys2Proof.Laws.FieldGrid
end

