-- ==== Sys2Proof/Tests/Slice0.lean ====
section
/-! SUPPORT. Tests: ill-formed terms refused, words written out from the encodings, one step on the vectors of
spec/95_test_vectors.md (whose row is named at each), the refusals, the costs, and for every statement with hypotheses a
state that meets them. -/

namespace Sys2Proof.Tests

set_option Elab.async false

open Sys2Proof.Machine

/-! ### WellFormed: each check refuses an ill-formed term -/

theorem test_wf_short_control_word : controlWordWf [true, false, false, false] = false := by decide
theorem test_wf_long_control_word : controlWordWf [true, false, false, false, false, false] = false := by decide
theorem test_wf_constant_out_of_range : WordSrc.wf 8 (.const 256) = false := by decide
/-- `ADD #1, #2` with no destination. -/
theorem test_wf_no_destination :
    Line.wf 8 { instr := .add, dest := none, x := .const 1, y := some (.const 2), c := none } = false := by decide
/-- `SHL T0, T1, T2`. -/
theorem test_wf_second_word_of_shift :
    Line.wf 8 { instr := .shl, dest := some 0, x := .reg 1, y := some (.reg 2), c := none } = false := by decide
/-- `SEL T0, T1, T2` with no bit source. -/
theorem test_wf_missing_bit_source :
    Line.wf 8 { instr := .sel, dest := some 0, x := .reg 1, y := some (.reg 2), c := none } = false := by decide
theorem test_wf_x_out_of_range :
    Line.wf 8 { instr := .shl, dest := some 0, x := .const 256, y := none, c := none } = false := by decide
theorem test_wf_y_out_of_range :
    Line.wf 8 { instr := .add, dest := some 0, x := .reg 0, y := some (.const 256), c := none } = false := by decide
theorem test_wf_cmp_without_destination :
    Line.wf 8 { instr := .cmp, dest := none, x := .reg 0, y := some (.const 255), c := none } = true := by decide

/-! ### Decoding: the code of every instruction as R62 to R64 write it, most significant bit first -/

theorem test_decode_add : decode 0b00000#5 = .ok .add := by rfl
theorem test_decode_sub : decode 0b00001#5 = .ok .sub := by rfl
theorem test_decode_cmp : decode 0b00010#5 = .ok .cmp := by rfl
theorem test_decode_sel : decode 0b00011#5 = .ok .sel := by rfl
theorem test_decode_shl : decode 0b01000#5 = .ok .shl := by rfl
theorem test_decode_shr : decode 0b01001#5 = .ok .shr := by rfl
theorem test_decode_sar : decode 0b01011#5 = .ok .sar := by rfl
theorem test_decode_rol : decode 0b01100#5 = .ok .rol := by rfl
theorem test_decode_ror : decode 0b01101#5 = .ok .ror := by rfl
theorem test_decode_rcl : decode 0b01110#5 = .ok .rcl := by rfl
theorem test_decode_rcr : decode 0b01111#5 = .ok .rcr := by rfl
theorem test_decode_bshl : decode 0b10000#5 = .ok .bshl := by rfl
theorem test_decode_bshr : decode 0b10001#5 = .ok .bshr := by rfl
theorem test_decode_bsar : decode 0b10011#5 = .ok .bsar := by rfl
theorem test_decode_brol : decode 0b10100#5 = .ok .brol := by rfl
theorem test_decode_bror : decode 0b10101#5 = .ok .bror := by rfl
/-- RCL is `01110`, so its bits from bit 0 up are 0, 1, 1, 1, 0. -/
theorem test_decode_bits : decodeBits [false, true, true, true, false] = .ok .rcl := by rfl
theorem test_decode_arithmetic_left : decode 0b01010#5 = .error (.reserved 0b01010#5) := by rfl
theorem test_decode_table_word : decodeTableWord 5 0b10011 = some .bsar := by decide
theorem test_decode_table_word_too_long : decodeTableWord 5 0b110011 = none := by decide

/-! ### One step on a vector of spec/95_test_vectors.md -/

/-- A Concrete instance of width `W` with literals on its ports. -/
def concreteState (W : Nat) (h : 1 ≤ W) (op a b ctrl cin : Nat) : State :=
  { State.create W h .concrete false with
    inputs := { op := .literal op, a := .literal a, b := .literal b, ctrl := .literal ctrl, cin := .literal cin,
                readOut := none, outputLabel := none } }

/-- A Circuit instance of width `W` with the code `op` and INPUT cells on every other port: `a` under label 0, `b` under 1,
`ctrl` under 2, `cin` under 3. -/
def circuitState (W : Nat) (h : 1 ≤ W) (op : Nat) : State :=
  { State.create W h .circuit false with
    inputs := { op := .literal op, a := .inputs 0, b := .inputs 1, ctrl := .inputs 2, cin := .inputs 3,
                readOut := none, outputLabel := none } }

/-- The same with INPUT cells under label 4 on `op`. -/
def symbolicOpState (W : Nat) (h : 1 ≤ W) : State :=
  { circuitState W h 0 with inputs := { (circuitState W h 0).inputs with op := .inputs 4 } }

/-- The assignment that gives the ports of a Circuit instance these values. -/
def assign (op a b ctrl cin : Nat) : Assignment := fun n =>
  match n.label with
  | 0 => a.testBit n.bit
  | 1 => b.testBit n.bit
  | 2 => ctrl.testBit n.bit
  | 3 => cin.testBit n.bit
  | _ => op.testBit n.bit

/-- The outputs of a step under an assignment: `r`, then `cout`, `lt`, `eq`, `gt`, `ill`. -/
def outs (ρ : Assignment) : Host.Outcome State Fault Refusal → Option (Nat × List Nat)
  | .next s => s.outputs.map fun o =>
      let v := o.values s.width s.factory ρ
      (v.r.toNat, [v.cout.toNat, v.lt.toNat, v.eq.toNat, v.gt.toNat, v.ill.toNat])
  | .fault _ => none
  | .refused _ => none

/-- The refusal of a step. -/
def refusal : Host.Outcome State Fault Refusal → Option Refusal
  | .refused r => some r
  | .next _ => none
  | .fault _ => none

/-- The counters after a step. -/
def counts : Host.Outcome State Fault Refusal → Option (Nat × Nat)
  | .next s => some s.counters
  | .fault _ => none
  | .refused _ => none

/-- The assignment of a Concrete instance, which has no INPUT. -/
def noInputs : Assignment := fun _ => false

/-- V-ADD8-3. -/
theorem test_add_concrete : outs noInputs (step (concreteState 8 (by decide) 0b00000 0xF0 0x34 0 0)) =
    some (0x24, [1, 1, 0, 0, 0]) := by decide +kernel
/-- V-SUB8-9. -/
theorem test_sub_concrete : outs noInputs (step (concreteState 8 (by decide) 0b00001 0xC8 0x0A 0 0)) =
    some (0xBE, [1, 1, 0, 0, 0]) := by decide +kernel
/-- V-CMP8-4. -/
theorem test_cmp_concrete : outs noInputs (step (concreteState 8 (by decide) 0b00010 0x80 0x01 0 0)) =
    some (0x80, [1, 0, 0, 1, 0]) := by decide +kernel
/-- V-SEL8-6. -/
theorem test_sel_concrete : outs noInputs (step (concreteState 8 (by decide) 0b00011 0x00 0xFF 0 1)) =
    some (0xFF, [0, 0, 0, 1, 0]) := by decide +kernel
/-- V-SHL8-2. -/
theorem test_shl_concrete : outs noInputs (step (concreteState 8 (by decide) 0b01000 0x81 0x00 0 1)) =
    some (0x02, [1, 1, 0, 0, 0]) := by decide +kernel
/-- V-SHR8-2. -/
theorem test_shr_concrete : outs noInputs (step (concreteState 8 (by decide) 0b01001 0x81 0x00 0 1)) =
    some (0x40, [1, 1, 0, 0, 0]) := by decide +kernel
/-- V-SAR8-1. -/
theorem test_sar_concrete : outs noInputs (step (concreteState 8 (by decide) 0b01011 0x81 0x00 0 0)) =
    some (0xC0, [1, 1, 0, 0, 0]) := by decide +kernel
/-- V-ROL8-5. -/
theorem test_rol_concrete : outs noInputs (step (concreteState 8 (by decide) 0b01100 0x80 0x00 0 0)) =
    some (0x01, [1, 1, 0, 0, 0]) := by decide +kernel
/-- V-ROR8-6. -/
theorem test_ror_concrete : outs noInputs (step (concreteState 8 (by decide) 0b01101 0x01 0x00 0 1)) =
    some (0x80, [1, 0, 0, 1, 0]) := by decide +kernel
/-- V-RCL8-2. -/
theorem test_rcl_concrete : outs noInputs (step (concreteState 8 (by decide) 0b01110 0x81 0x00 0 1)) =
    some (0x03, [1, 1, 0, 0, 0]) := by decide +kernel
/-- V-RCR8-5. -/
theorem test_rcr_concrete : outs noInputs (step (concreteState 8 (by decide) 0b01111 0x80 0x00 0 0)) =
    some (0x40, [0, 1, 0, 0, 0]) := by decide +kernel
/-- V-BSHL8-3. -/
theorem test_bshl_concrete : outs noInputs (step (concreteState 8 (by decide) 0b10000 0x81 0x03 0 0)) =
    some (0x08, [0, 0, 0, 1, 0]) := by decide +kernel
/-- V-BSHR8-6. -/
theorem test_bshr_concrete : outs noInputs (step (concreteState 8 (by decide) 0b10001 0x81 0x09 0 0)) =
    some (0x00, [0, 0, 0, 1, 0]) := by decide +kernel
/-- V-BSAR8-4. -/
theorem test_bsar_concrete : outs noInputs (step (concreteState 8 (by decide) 0b10011 0x81 0x07 0 0)) =
    some (0xFF, [0, 0, 0, 1, 0]) := by decide +kernel
/-- V-BROL13-4. -/
theorem test_brol_concrete : outs noInputs (step (concreteState 13 (by decide) 0b10100 0x1001 0x000E 0 0)) =
    some (0x0003, [0, 0, 0, 1, 0]) := by decide +kernel
/-- V-BROR8-7. -/
theorem test_bror_concrete : outs noInputs (step (concreteState 8 (by decide) 0b10101 0x81 0xFF 0 0)) =
    some (0x03, [0, 1, 0, 0, 0]) := by decide +kernel

/-! The same rules in the Circuit realization, where the value of an output is the value of its node (R28). The expected
values are worked out from the rules by hand where no vector has this width. -/

/-- V-ADD1-4. -/
theorem test_add_circuit : outs (assign 0 0x1 0x1 0 0) (step (circuitState 1 (by decide) 0b00000)) =
    some (0x0, [1, 0, 1, 0, 0]) := by decide +kernel
/-- V-SUB1-2. -/
theorem test_sub_circuit : outs (assign 0 0x0 0x1 0 0) (step (circuitState 1 (by decide) 0b00001)) =
    some (0x1, [0, 1, 0, 0, 0]) := by decide +kernel
/-- V-CMP1-3. -/
theorem test_cmp_circuit : outs (assign 0 0x1 0x0 0 0) (step (circuitState 1 (by decide) 0b00010)) =
    some (0x1, [1, 1, 0, 0, 0]) := by decide +kernel
/-- V-SEL1-7. -/
theorem test_sel_circuit : outs (assign 0 0x1 0x0 1 0) (step (circuitState 1 (by decide) 0b00011)) =
    some (0x1, [0, 1, 0, 0, 0]) := by decide +kernel
/-- V-SHL1-3. -/
theorem test_shl_circuit : outs (assign 0 0x1 0x0 0 0) (step (circuitState 1 (by decide) 0b01000)) =
    some (0x0, [1, 1, 0, 0, 0]) := by decide +kernel
/-- V-SHR1-3. -/
theorem test_shr_circuit : outs (assign 0 0x1 0x0 0 0) (step (circuitState 1 (by decide) 0b01001)) =
    some (0x0, [1, 1, 0, 0, 0]) := by decide +kernel
/-- V-SAR1-3. -/
theorem test_sar_circuit : outs (assign 0 0x1 0x0 0 0) (step (circuitState 1 (by decide) 0b01011)) =
    some (0x1, [1, 1, 0, 0, 0]) := by decide +kernel
/-- V-ROL1-3. -/
theorem test_rol_circuit : outs (assign 0 0x1 0x0 0 0) (step (circuitState 1 (by decide) 0b01100)) =
    some (0x1, [1, 1, 0, 0, 0]) := by decide +kernel
/-- V-ROR1-3. -/
theorem test_ror_circuit : outs (assign 0 0x1 0x0 0 0) (step (circuitState 1 (by decide) 0b01101)) =
    some (0x1, [1, 1, 0, 0, 0]) := by decide +kernel
/-- V-RCL1-4. -/
theorem test_rcl_circuit : outs (assign 0 0x1 0x0 0 1) (step (circuitState 1 (by decide) 0b01110)) =
    some (0x1, [1, 1, 0, 0, 0]) := by decide +kernel
/-- V-RCR1-3. -/
theorem test_rcr_circuit : outs (assign 0 0x1 0x0 0 0) (step (circuitState 1 (by decide) 0b01111)) =
    some (0x0, [1, 1, 0, 0, 0]) := by decide +kernel
/-- V-BSHL1-2. -/
theorem test_bshl_circuit : outs (assign 0 0x1 0x1 0 0) (step (circuitState 1 (by decide) 0b10000)) =
    some (0x0, [0, 0, 1, 0, 0]) := by decide +kernel
/-- V-BSHR1-2. -/
theorem test_bshr_circuit : outs (assign 0 0x1 0x1 0 0) (step (circuitState 1 (by decide) 0b10001)) =
    some (0x0, [0, 0, 1, 0, 0]) := by decide +kernel
/-- V-BSAR1-2. -/
theorem test_bsar_circuit : outs (assign 0 0x1 0x1 0 0) (step (circuitState 1 (by decide) 0b10011)) =
    some (0x1, [0, 0, 1, 0, 0]) := by decide +kernel
/-- V-BROL1-2. -/
theorem test_brol_circuit : outs (assign 0 0x1 0x1 0 0) (step (circuitState 1 (by decide) 0b10100)) =
    some (0x1, [0, 0, 1, 0, 0]) := by decide +kernel
/-- V-BROR1-2. -/
theorem test_bror_circuit : outs (assign 0 0x1 0x1 0 0) (step (circuitState 1 (by decide) 0b10101)) =
    some (0x1, [0, 0, 1, 0, 0]) := by decide +kernel

/-! ### Reserved codes (R66, R181) -/

/-- V-ILL8-1: the outputs of R181. -/
theorem test_reserved_outputs :
    outs noInputs (step (concreteState 8 (by decide) 0b00100 0x12 0x34 1 1)) = some (0, [0, 1, 0, 0, 1]) := by
  decide +kernel
/-- V-ILL8-10, in the Circuit realization at the width 1 with `a` = 0, `b` = 1. -/
theorem test_reserved_circuit :
    outs (assign 0 0 1 1 1) (step (circuitState 1 (by decide) 0b11111)) = some (0, [0, 1, 0, 0, 1]) := by decide +kernel

/-- The fault of a step. -/
def faultOf : Host.Outcome State Fault Refusal → Option Fault
  | .fault e => some e
  | .next _ => none
  | .refused _ => none

/-- The state a step gives, or the state it started from. -/
def after (s : State) : State :=
  match step s with
  | .next t => t
  | .fault _ => s
  | .refused _ => s

/-- The recorded code makes the next step a fault with it (R181). -/
theorem test_reserved_is_final :
    faultOf (step (after (concreteState 8 (by decide) 0b10110 9 5 0 0))) = some (.illegalOp 0b10110#5) := by decide +kernel

/-! ### A symbolic `op` (R69): the outputs are those of the code the assignment gives -/

theorem test_symbolic_op_sub :
    outs (assign 0b00001 0 1 0 0) (step (symbolicOpState 1 (by decide))) = some (1, [0, 1, 0, 0, 0]) := by decide +kernel

/-- With 11111 on `op` the fault is recorded under that assignment, with the code (R181). -/
theorem test_symbolic_op_reserved :
    (after (symbolicOpState 1 (by decide))).illegalUnder (assign 0b11111 0 1 0 0) = some 0b11111#5 := by decide +kernel

/-! ### Refusals (spec/95 section 3, R182 to R185, R81, R203) -/

/-- A Concrete state of width 8 with `a` driven as given. -/
def driveA (d : Drive) : State :=
  { concreteState 8 (by decide) 0 0 0 0 0 with inputs := { (concreteState 8 (by decide) 0 0 0 0 0).inputs with a := d } }

theorem test_refused_literal_256 : refusal (step (driveA (.literal 256))) = some .literalOutOfRange := by decide +kernel
theorem test_refused_literal_negative : refusal (step (driveA (.literal (-1)))) = some .literalOutOfRange := by
  decide +kernel
/-- `a` of 13 bits. -/
theorem test_refused_width : refusal (step (driveA (.word (List.replicate 13 (.concrete false))))) = some .widthMismatch := by
  decide +kernel
theorem test_refused_realization :
    refusal (step (driveA (.word (List.replicate 8 (.symbolic 0))))) = some .realizationMismatch := by decide +kernel
theorem test_refused_cycle : refusal (step (driveA (.output .r))) = some .combinationalCycle := by decide +kernel
theorem test_refused_input_on_concrete : refusal (step (driveA (.inputs 0))) = some .inputOnConcrete := by decide +kernel
theorem test_refused_undriven : refusal (step (driveA .undriven)) = some .undrivenPort := by decide +kernel
theorem test_refused_reset : refusal (step State.reset) = some .undrivenPort := by decide +kernel

/-- A Circuit state of width 1 whose `r` is asked for. -/
def readSymbolic : State :=
  { circuitState 1 (by decide) 0 with inputs := { (circuitState 1 (by decide) 0).inputs with readOut := some .r } }

theorem test_refused_symbolic_extract : refusal (step readSymbolic) = some .symbolicExtract := by decide +kernel

/-- A Circuit state of width 1 with `a` the first node that the evaluation itself would make (R205). -/
def noNode : State :=
  { circuitState 1 (by decide) 0 with inputs := { (circuitState 1 (by decide) 0).inputs with a := .word [.symbolic 0] } }

theorem test_refused_node_of_same_evaluation : refusal (step noNode) = some .combinationalCycle := by decide +kernel
/-- R205: through other logic without storage. -/
theorem test_refused_cycle_through_logic : refusal (step (driveA (.throughLogic 8 .cout))) = some .combinationalCycle := by
  decide +kernel

/-- A wide word on `a` and an out-of-range literal on `b`: the literal comes first (R185). -/
def twoErrors : State :=
  { driveA (.word []) with inputs := { (driveA (.word [])).inputs with b := .literal 256 } }

theorem test_refusal_order : refusal (step twoErrors) = some .literalOutOfRange := by decide +kernel

/-- A Concrete state whose `r` is asked for: V-ADD8-3 reads out 0x24. -/
def readConcrete : State :=
  { concreteState 8 (by decide) 0 0xF0 0x34 0 0 with
    inputs := { (concreteState 8 (by decide) 0 0xF0 0x34 0 0).inputs with readOut := some .r } }

/-- The number a step read out. -/
def reading : Host.Outcome State Fault Refusal → Option Nat
  | .next s => s.outputs.bind fun o => o.reading
  | .fault _ => none
  | .refused _ => none

/-- The same request with a reserved code. -/
def readReserved : State :=
  { readConcrete with inputs := { readConcrete.inputs with op := .literal 0b00100 } }

/-- No output of an illegal evaluation may be used (R181), so none is read out. -/
theorem test_no_read_out_of_reserved : reading (step readReserved) = none := by decide +kernel

theorem test_read_out : reading (step readConcrete) = some 0x24 := by decide +kernel

/-! ### Counters and depths -/

/-- ADD and the comparator at width 1: 1 / 1 beside 3 / 7 (L1-1, R212). -/
theorem test_counts_add : counts (step (concreteState 1 (by decide) 0 1 1 0 0)) = some (4, 8) := by decide +kernel
/-- CMP at width 13 (V-CNT-10), in the Circuit realization. -/
theorem test_counts_cmp : counts (step (circuitState 13 (by decide) 2)) = some (39, 67) := by decide +kernel
/-- BROL at width 8: 64 / 128 beside 24 / 42. -/
theorem test_counts_brol : counts (step (concreteState 8 (by decide) 0b10100 0x81 3 0 0)) = some (88, 170) := by
  decide +kernel

/-- The steps of V-CNT-2 to V-CNT-9 at width 8 on one factory, from the operands `a` and `b`. -/
def countSteps (a b : Word) (c : Bit) : Build Unit := do
  let _ ← addNet a b
  let _ ← addNet a b
  let (d, _) ← subNet a b
  let _ ← compareFlags d
  let _ ← muxWord c a b
  let z ← constCell false
  let _ ← leftWiring a z
  let e ← topBit a
  let _ ← rightWiring a e
  let _ ← leftWiring a c
  let _ ← barrel stageBrol 0 b a
  pure ()

/-- The counters after a construction on a new factory. -/
def countsOf {α : Type} (r : Realization) (m : Build α) : Option (Nat × Nat) :=
  match m (Factory.create r false) with
  | .ok (_, f) => some (f.andCount, f.xorCount)
  | .error _ => none

/-- V-CNT-9. -/
theorem test_counts_chain : countsOf .concrete
    (countSteps (List.replicate 8 (.concrete true)) (List.replicate 8 (.concrete false)) (.concrete true)) =
    some (126, 230) := by decide +kernel
/-- V-CNT-11: one NOT, one MUX, one OR. -/
theorem test_counts_cells : countsOf .concrete (do
    let x ← notCell (.concrete true)
    let y ← muxCell x x (.concrete true)
    orCell x y) = some (2, 5) := by decide +kernel
/-- L1-6: `XOR(AND(a, b), AND(a, b))` built with two calls counts 2 and 1, whether or not nodes are reused. -/
theorem test_counts_reuse :
    (match (do
        let x ← inputCell ⟨0, 0⟩
        let y ← inputCell ⟨1, 0⟩
        let u ← andCell x y
        let v ← andCell x y
        xorCell u v : Build Bit) (Factory.create .circuit true) with
      | .ok (z, f) => some (f.andCount, f.xorCount, f.graph.length, f.bitValue (fun _ => true) z)
      | .error _ => none) = some (2, 1, 4, false) := by decide +kernel

/-- The depths of bits of a construction over the INPUT words `a` and `b` of width `W`. -/
def depths (W : Nat) (m : Word → Word → Build (List Bit)) : Option (List (Nat × Nat)) :=
  match (do
      let a ← inputWord 0 W 0
      let b ← inputWord 1 W 0
      m a b : Build (List Bit)) (Factory.create .circuit false) with
  | .ok (bits, f) => some (bits.map (bitDepths f.graph))
  | .error _ => none

/-- R211, ADD at width 8: `cout`, then the top bit of `r`. -/
theorem test_depth_add : depths 8 (fun a b => do
    let (r, c) ← addNet a b
    pure (c :: r.drop 7)) = some [(15, 8), (14, 7)] := by decide +kernel
/-- R211, SUB and the flags at width 8: `cout`, `lt`, `eq`, `gt`. -/
theorem test_depth_compare : depths 8 (fun a b => do
    let (d, c) ← subNet a b
    let g ← compareFlags d
    pure [c, g.lt, g.eq, g.gt]) = some [(18, 8), (17, 7), (19, 8), (21, 9)] := by decide +kernel

/-! ### The harness -/

/-- A harness of width 8 with T0 = 0x7F and T1 = 0x01. -/
def harness : Harness :=
  Harness.start (State.create 8 (by decide) .concrete false) [.literal 0x7F, .literal 0x01]

/-- Word `i` of the harness after a line. -/
def wordAfter (i : Nat) : Host.Outcome Harness Fault Refusal → Option Nat
  | .next h => some (uval ((h.words.getD i .undriven).bits h.wdp.factory noInputs h.wdp.width))
  | .fault _ => none
  | .refused _ => none

/-- `ADD T0, T0, T1` reads the old value (R206). -/
theorem test_line_destination_equals_source :
    wordAfter 0 (harness.runLine { instr := .add, dest := some 0, x := .reg 0, y := some (.reg 1), c := none }) =
      some 0x80 := by decide +kernel
theorem test_pseudo_notw : wordAfter 2 (harness.runLine (Pseudo.expand 8 (.notw 2 (.reg 0)))) = some 0x80 := by
  decide +kernel
/-- `ADD T2, T0, #-1`. -/
theorem test_line_negative_constant :
    wordAfter 2 (harness.runLine { instr := .add, dest := some 2, x := .reg 0, y := some (.negConst 1), c := none }) =
      some 0x7E := by decide +kernel

/-! ### For every statement with hypotheses, a state that meets them

`edge` is Concrete with every port at its largest value; `wired` is Circuit with a graph of three nodes, some of them on its
ports; `least` is the width 1 with every port at 0. -/

def edge : State := concreteState 8 (by decide) 0 255 255 1 1

def wired : State :=
  { State.create 1 (by decide) .circuit false with
    factory := { realization := .circuit, reuseNodes := true, andCount := 1, xorCount := 0,
                 graph := [.input ⟨7, 0⟩, .constant true, .and 0 1] }
    inputs := { op := .literal 0, a := .word [.symbolic 2], b := .inputs 1, ctrl := .word [.symbolic 1], cin := .literal 0,
                readOut := none, outputLabel := some 3 } }

def least : State := concreteState 1 (by decide) 0 0 0 0 0

/-- A well-built factory and inputs that are not refused, the hypotheses of most statements. -/
abbrev Ready (s : State) : Prop := s.factory.wellBuilt = true ∧ s.InputsOk

/-- A step gives a next state. -/
def goesOn (s : State) : Bool :=
  match step s with
  | .next _ => true
  | .fault _ => false
  | .refused _ => false

theorem next_of_goesOn {s : State} (h : goesOn s = true) : step s = .next (after s) := by
  unfold goesOn at h
  unfold after
  split at h <;> simp_all

theorem ready_edge : Ready edge := by decide +kernel
theorem ready_wired : Ready wired := by decide +kernel
theorem ready_least : Ready least := by decide +kernel

theorem witness_AddCompletes : Ready edge ∧ Ready wired ∧ Ready least := ⟨ready_edge, ready_wired, ready_least⟩
theorem witness_SubCompletes : Ready edge ∧ Ready wired ∧ Ready least := ⟨ready_edge, ready_wired, ready_least⟩
theorem witness_CmpCompletes : Ready edge ∧ Ready wired ∧ Ready least := ⟨ready_edge, ready_wired, ready_least⟩
theorem witness_SelCompletes : Ready edge ∧ Ready wired ∧ Ready least := ⟨ready_edge, ready_wired, ready_least⟩
theorem witness_ShiftsComplete : Ready edge ∧ Ready wired ∧ Ready least := ⟨ready_edge, ready_wired, ready_least⟩
theorem witness_RotatesComplete : Ready edge ∧ Ready wired ∧ Ready least := ⟨ready_edge, ready_wired, ready_least⟩
theorem witness_CarryRotatesComplete : Ready edge ∧ Ready wired ∧ Ready least := ⟨ready_edge, ready_wired, ready_least⟩
/-- The amount 255 is beyond the width, the amount 0 below it. -/
theorem witness_BarrelLogicalComplete : Ready edge ∧ edge.width ≤ (edge.ports noInputs).b.toNat ∧ Ready least ∧
    ¬ least.width ≤ (least.ports noInputs).b.toNat := by decide +kernel
theorem witness_BarrelArithmeticCompletes : Ready edge ∧ Ready wired ∧ Ready least := ⟨ready_edge, ready_wired, ready_least⟩
theorem witness_BarrelRotatesComplete : Ready edge ∧ Ready wired ∧ Ready least := ⟨ready_edge, ready_wired, ready_least⟩

theorem witness_OpcodeMap : familyField 0b11000#5 = 0b11#2 ∧ familyField 0b11111#5 = 0b11#2 := by decide
theorem witness_InvAtCreation : 1 ≤ (State.create 1 (by decide) .circuit true).width := by decide
theorem witness_Creation : 1 ≤ (State.create 1 (by decide) .circuit true).width := by decide
theorem witness_FaultsExactly : ∃ c, { edge with illegal := some 0b11111#5 : State }.illegal = some c ∧
    Fault.illegalOp 0b11111#5 = .illegalOp c := ⟨_, rfl, rfl⟩
theorem witness_DecodeEncodeAgree : Instr.bror.wf = true ∧ decode 0b10101#5 = .ok .bror := ⟨rfl, rfl⟩
theorem witness_DecodeBitsExact : ([] : List Bool).length ≠ 5 ∧ [true, true, true, true, true, true].length ≠ 5 := by decide
theorem witness_StepRunsDecoded : (concreteState 8 (by decide) 0b10101 0 0 0 0).illegal = none ∧
    (concreteState 8 (by decide) 0b10101 0 0 0 0).opCode = some (encode .bror) := by decide

theorem witness_FlagsAtEveryEvaluation :
    (∀ s ∈ [edge, wired, least, symbolicOpState 1 (by decide), concreteState 8 (by decide) 0b11111 0 0 0 0],
      Ready s ∧ s.illegal = none) := by decide +kernel
/-- -128 - (-1) = -127 does not overflow; the other clause has no hypothesis on the operands. -/
theorem witness_SignedComparison : Ready (concreteState 8 (by decide) 2 0x80 0xFF 0 0) ∧
    (concreteState 8 (by decide) 2 0x80 0xFF 0 0).illegal = none ∧
    (∀ s ∈ [symbolicOpState 1 (by decide), concreteState 8 (by decide) 0b11111 0 0 0 0], Ready s ∧ s.illegal = none) ∧
    -(2 : Int) ^ 7 ≤ ((concreteState 8 (by decide) 2 0x80 0xFF 0 0).ports noInputs).a.toInt -
      ((concreteState 8 (by decide) 2 0x80 0xFF 0 0).ports noInputs).b.toInt := by decide +kernel
theorem witness_UnsignedComparison : (Instr.sub = .cmp ∨ Instr.sub = .sub) ∧ Ready edge ∧ Ready least := by decide +kernel
theorem witness_ExactlyOneFlag : wired.inv = true ∧ step wired = .next (after wired) :=
  ⟨by decide +kernel, next_of_goesOn (by decide +kernel)⟩
theorem witness_WidthOne : least.width = 1 ∧ Ready least ∧ wired.width = 1 ∧ Ready wired := by decide +kernel

/-- 0x80 + 0x00 and 0x7F + 0x00 stand at the two ends of the signed range. -/
theorem witness_AddSubBothReadings :
    Ready (concreteState 8 (by decide) 0 0x80 0 0 0) ∧ Ready (concreteState 8 (by decide) 0 0x7F 0 0 0) ∧
    ((concreteState 8 (by decide) 0 0x80 0 0 0).ports noInputs).a.toInt +
      ((concreteState 8 (by decide) 0 0x80 0 0 0).ports noInputs).b.toInt = -(2 : Int) ^ 7 ∧
    ((concreteState 8 (by decide) 0 0x7F 0 0 0).ports noInputs).a.toInt +
      ((concreteState 8 (by decide) 0 0x7F 0 0 0).ports noInputs).b.toInt = (2 : Int) ^ 7 - 1 ∧
    ((concreteState 8 (by decide) 0 0x7F 0 0 0).ports noInputs).b.toNat ≤
      ((concreteState 8 (by decide) 0 0x7F 0 0 0).ports noInputs).a.toNat := by decide +kernel
theorem witness_RightRotationUndoesLeft :
    ((Instr.brol, Instr.bror) = (.rol, .ror) ∨ (Instr.brol, Instr.bror) = (.brol, .bror)) ∧ Ready edge ∧ Ready wired := by
  decide +kernel
theorem witness_BarrelByOne :
    (Instr.sar, Instr.bsar) ∈ [(Instr.shl, Instr.bshl), (.shr, .bshr), (.sar, .bsar), (.rol, .brol), (.ror, .bror)] ∧
    Ready (concreteState 1 (by decide) 0 1 1 0 0) ∧
    ((concreteState 1 (by decide) 0 1 1 0 0).ports noInputs).b.toNat = 1 := by decide +kernel
/-- SHL with other values on every port but `a`. -/
theorem witness_UnreadPorts : Ready edge ∧
    State.InputsOk { edge with inputs := (concreteState 8 (by decide) 0 255 0 0 0).inputs } ∧
    (edge.ports noInputs).a = (State.ports { edge with inputs := (concreteState 8 (by decide) 0 255 0 0 0).inputs } noInputs).a ∧
    lineTakesY .shl = false := by decide +kernel

theorem witness_StepDrivesOutputFunction :
    (∀ s ∈ [edge, wired, least, symbolicOpState 1 (by decide), concreteState 8 (by decide) 0b00100 0 0 0 0],
      Ready s ∧ s.illegal = none) := by decide +kernel
/-- A Concrete instance of width 1 beside a Circuit one with INPUT cells on `a`, `b`, `ctrl` and `cin`. -/
theorem witness_OutputsDependOnPortsOnly :
    Ready (concreteState 1 (by decide) 1 1 1 0 1) ∧
    (circuitState 1 (by decide) 1).factory.wellBuilt = true ∧
    State.InputsOk { concreteState 1 (by decide) 1 1 1 0 1 with
      factory := (circuitState 1 (by decide) 1).factory, inputs := (circuitState 1 (by decide) 1).inputs } ∧
    State.ports { concreteState 1 (by decide) 1 1 1 0 1 with
      factory := (circuitState 1 (by decide) 1).factory, inputs := (circuitState 1 (by decide) 1).inputs } (assign 0 1 1 0 1) =
      (concreteState 1 (by decide) 1 1 1 0 1).ports noInputs := by decide +kernel
theorem witness_SameInputsSameOutputs :
    wired.factory.wellBuilt = true ∧ step wired = .next (after wired) ∧ (after wired).illegal = none :=
  ⟨by decide +kernel, next_of_goesOn (by decide +kernel), by decide +kernel⟩
/-- An assigned code, and a reserved one that is recorded. -/
theorem witness_StepFrame :
    wired.factory.wellBuilt = true ∧ step wired = .next (after wired) ∧ wired.opCode.isSome = true ∧
    step (circuitState 1 (by decide) 0b00100) = .next (after (circuitState 1 (by decide) 0b00100)) ∧
    (after (circuitState 1 (by decide) 0b00100)).illegal = some 0b00100#5 :=
  ⟨by decide +kernel, next_of_goesOn (by decide +kernel), by decide +kernel, next_of_goesOn (by decide +kernel),
    by decide +kernel⟩
theorem witness_StepKeepsInv :
    wired.inv = true ∧ step wired = .next (after wired) ∧ (circuitState 1 (by decide) 0b11111).inv = true ∧
    step (circuitState 1 (by decide) 0b11111) = .next (after (circuitState 1 (by decide) 0b11111)) :=
  ⟨by decide +kernel, next_of_goesOn (by decide +kernel), by decide +kernel, next_of_goesOn (by decide +kernel)⟩

/-- The lowest and the highest reserved code. -/
theorem witness_IllegalOpTaken :
    Ready (concreteState 8 (by decide) 0b00100 1 2 0 0) ∧ (concreteState 8 (by decide) 0b00100 1 2 0 0).illegal = none ∧
    (concreteState 8 (by decide) 0b00100 1 2 0 0).opCode = some 0b00100#5 ∧ 0b00100#5 ∈ reservedCodes ∧
    Ready (circuitState 1 (by decide) 0b11111) ∧ (circuitState 1 (by decide) 0b11111).illegal = none ∧
    (circuitState 1 (by decide) 0b11111).opCode = some 0b11111#5 ∧ 0b11111#5 ∈ reservedCodes := by decide +kernel

/-- The literals on each side of the range of an 8-bit port; the first four errors are tests above, with the same states. -/
theorem witness_ErrorsOfUseRefused_literal :
    (driveA (.literal 256)).illegal = none ∧
    ∃ d ∈ (driveA (.literal 256)).drives, ∃ k : Int, d.2 = .literal k ∧ ¬ (0 ≤ k ∧ k < 2 ^ d.1) :=
  ⟨rfl, (8, .literal 256), by decide, 256, rfl, by decide⟩
/-- Words one bit too short and one bit too long, every literal in range. -/
theorem witness_ErrorsOfUseRefused_width :
    (∀ n ∈ [7, 9], ∃ d ∈ (driveA (.word (List.replicate n (.concrete true)))).drives, ∃ w : Word, d.2 = .word w ∧
      w.length ≠ d.1) ∧
    ∀ n ∈ [7, 9], (driveA (.word (List.replicate n (.concrete true)))).drives.all (fun d => d.2.literalOk d.1) = true :=
  ⟨fun n hn => ⟨(8, .word (List.replicate n (.concrete true))), by simp [State.drives, driveA, concreteState, State.create],
    _, rfl, by simp at hn; rcases hn with rfl | rfl <;> decide⟩, by decide⟩
theorem witness_ErrorsOfUseRefused_realization :
    (∃ d ∈ (driveA (.word (List.replicate 8 (.symbolic 0)))).drives, ∃ w : Word, d.2 = .word w ∧ ∃ x ∈ w,
      ∃ n, x = .symbolic n) ∧ (driveA (.word (List.replicate 8 (.symbolic 0)))).factory.realization = .concrete ∧
    (driveA (.word (List.replicate 8 (.symbolic 0)))).drives.all (fun d => d.2.literalOk d.1 && d.2.widthOk 8 d.1) = true :=
  ⟨⟨(8, .word (List.replicate 8 (.symbolic 0))), by decide, _, rfl, .symbolic 0, by decide, 0, rfl⟩, rfl, by decide⟩
theorem witness_ErrorsOfUseRefused_extract :
    readSymbolic.illegal = none ∧ readSymbolic.inputs.readOut.isSome = true ∧ readSymbolic.factory.realization = .circuit ∧
    readSymbolic.drives.all (fun d => d.2.literalOk d.1 && d.2.widthOk 1 d.1 && d.2.realizationOk readSymbolic.factory) = true := by
  decide
/-- An output of another width than the port comes before the cycle, as a word of another width does (R185). -/
theorem witness_ErrorsOfUseRefused_output_width :
    (driveA (.output .lt)).inputError = some .widthMismatch ∧ (driveA (.throughLogic 7 .r)).inputError = some .widthMismatch ∧
    (driveA (.throughLogic 9 .lt)).inputError = some .widthMismatch := by decide +kernel
/-- The three forms of a cycle: an output, logic that reads one, and the first node the evaluation would make. -/
theorem witness_ErrorsOfUseRefused_cycle :
    (∀ s ∈ [driveA (.output .r), driveA (.throughLogic 8 .lt), noNode],
      s.illegal = none ∧ s.inputs.readOut = none ∧ s.drives.all
        (fun d => d.2.literalOk d.1 && d.2.widthOk s.width d.1 && d.2.realizationOk s.factory) = true) ∧
    (∃ d ∈ (driveA (.output .r)).drives, ∃ p : OutPort, d.2 = .output p) ∧
    (∃ d ∈ (driveA (.throughLogic 8 .lt)).drives, ∃ n p, d.2 = .throughLogic n p) ∧
    ∃ d ∈ noNode.drives, ∃ w : Word, d.2 = .word w ∧ ∃ n, Bit.symbolic n ∈ w ∧ noNode.factory.graph.length ≤ n :=
  ⟨by decide, ⟨(8, .output .r), by decide, .r, rfl⟩, ⟨(8, .throughLogic 8 .lt), by decide, 8, .lt, rfl⟩,
    ⟨(1, .word [.symbolic 0]), by decide, _, rfl, 0, by decide, by decide⟩⟩
theorem witness_OtherInputsRefused :
    ((driveA (.inputs 0)).illegal = none ∧ (driveA (.inputs 0)).inputError = some .inputOnConcrete) ∧
    ((driveA .undriven).illegal = none ∧ (driveA .undriven).inputError = some .undrivenPort) ∧
    Ready edge := by decide +kernel
theorem witness_RefusedExactlyByInputs :
    edge.factory.wellBuilt = true ∧ edge.illegal = none ∧ edge.InputsOk ∧
    (driveA .undriven).factory.wellBuilt = true ∧ (driveA .undriven).inputError = some .undrivenPort := by decide +kernel
theorem witness_ReadOut :
    (Ready readReserved ∧ readReserved.illegal = none ∧ readReserved.inputs.readOut = some .r ∧
      readReserved.opCode = some 0b00100#5 ∧ 0b00100#5 ∈ reservedCodes) ∧
    (readConcrete.illegal = none ∧ readConcrete.opCode = some 0#5 ∧ 0#5 ∉ reservedCodes) ∧
    (wired.factory.wellBuilt = true ∧ step wired = .next (after wired) ∧ wired.inputs.readOut = none) ∧
    Ready readConcrete ∧ readConcrete.inputs.readOut = some .r ∧ exec .add wired = .next (after wired) ∧
    wired.factory.realization = .circuit :=
  ⟨by decide +kernel, by decide +kernel, ⟨by decide +kernel, next_of_goesOn (by decide +kernel), rfl⟩,
    by decide +kernel, rfl, by
    have h : step wired = .next (after wired) := next_of_goesOn (by decide +kernel)
    exact h, rfl⟩

theorem witness_SymbolicIllegalOp :
    (symbolicOpState 1 (by decide)).inv = true ∧ (symbolicOpState 1 (by decide)).InputsOk ∧
    (symbolicOpState 1 (by decide)).illegal = none ∧ (symbolicOpState 1 (by decide)).opCode = none ∧
    ((symbolicOpState 1 (by decide)).ports (assign 0b00100 0 1 0 0)).op ∈ reservedCodes ∧
    ((symbolicOpState 1 (by decide)).ports (assign 0b00011 0 1 0 0)).op ∉ reservedCodes := by decide +kernel
/-- `wired` after an evaluation with INPUT cells under label 4 on `op`, whose `ill` is the AND of the INPUT under label 7. -/
def recorded : State := { wired with illegalIf := [{ op := .inputs 4, ill := .symbolic 2 }] }

/-- The assignment that gives every INPUT cell the value 1 has the fault, the one that gives 0 has not, and the machine goes
on. -/
theorem witness_IllegalIsFinal :
    recorded.inv = true ∧ recorded.illegalUnder (fun _ => true) = some 0b11111#5 ∧ recorded.illegalUnder noInputs = none ∧
    step recorded = .next (after recorded) :=
  ⟨by decide +kernel, by decide +kernel, by decide +kernel, next_of_goesOn (by decide +kernel)⟩
/-- The run of the first assignment stops (R181), that of the second does not. -/
theorem test_step_under_assignment :
    faultOf (stepUnder (fun _ => true) recorded) = some (.illegalOp 0b11111#5) ∧
    faultOf (stepUnder noInputs recorded) = none ∧ recorded.outputsUnder (fun _ => true) = none := by decide +kernel

theorem witness_EvaluationCost : Ready edge ∧ Ready wired ∧ Ready least := ⟨ready_edge, ready_wired, ready_least⟩
theorem witness_SymbolicOpCounts :
    (symbolicOpState 1 (by decide)).illegal = none ∧ (symbolicOpState 1 (by decide)).opCode = none ∧
    ∃ t, step (symbolicOpState 1 (by decide)) = .next t := by
  have h : (symbolicOpState 1 (by decide)).opCode = none := by decide +kernel
  obtain ⟨o, f, e, -⟩ := evaluateSymbolicOp_next (s := symbolicOpState 1 (by decide)) (by decide +kernel) (by decide +kernel)
  exact ⟨rfl, h, _, e⟩

theorem witness_PrimitiveCells : wired.factory.wellBuilt = true ∧ wired.factory.ownsBit (.symbolic 2) = true ∧
    edge.factory.wellBuilt = true ∧ edge.factory.ownsBit (.concrete true) = true := by decide +kernel
theorem witness_InputCell : wired.factory.wellBuilt = true ∧ wired.factory.realization = .circuit ∧
    edge.factory.wellBuilt = true ∧ edge.factory.realization = .concrete := by decide +kernel
theorem witness_DerivedCells : wired.factory.wellBuilt = true ∧ wired.factory.ownsBit (.symbolic 0) = true ∧
    wired.factory.ownsBit (.symbolic 1) = true ∧ wired.factory.ownsBit (.symbolic 2) = true := by decide +kernel

/-- Two words of a factory, of one width. -/
abbrev TwoWords (f : Factory) (a b : Word) : Prop :=
  f.wellBuilt = true ∧ a.all f.ownsBit = true ∧ b.all f.ownsBit = true ∧ a.length = b.length ∧ 1 ≤ a.length

theorem witness_WordCells : TwoWords wired.factory [.symbolic 0, .symbolic 2] [.symbolic 1, .symbolic 1] ∧
    wired.factory.ownsBit (.symbolic 0) = true := by decide +kernel
theorem witness_AddSubConstructions : TwoWords wired.factory [.symbolic 2] [.symbolic 1] ∧
    TwoWords edge.factory [.concrete true, .concrete false] [.concrete true, .concrete true] := by decide +kernel
theorem witness_CompareConstruction : TwoWords wired.factory [.symbolic 2] [.symbolic 1] ∧
    TwoWords edge.factory [.concrete true, .concrete false] [.concrete true, .concrete true] := by decide +kernel
theorem witness_BarrelConstruction : TwoWords wired.factory [.symbolic 2] [.symbolic 1] ∧
    TwoWords edge.factory [.concrete true, .concrete false] [.concrete true, .concrete true] := by decide +kernel
/-- Both ends of the range of 8 bits, and the numbers just outside. -/
theorem witness_FromConstant : wired.factory.wellBuilt = true ∧
    (∀ k ∈ [(0 : Int), 255], 0 ≤ k ∧ k < 2 ^ 8) ∧ ∀ k ∈ [(-1 : Int), 256], ¬ (0 ≤ k ∧ k < 2 ^ 8) := by decide +kernel

/-- `ADD T0, T0, T1`, `CMP T0, T1` with no destination, `SEL T1, 1, T0, T1`, `RCL T0, T0, 1` and `RCR T1, #-1, C`. -/
theorem witness_LineWritesBack :
    harness.wdp.factory.wellBuilt = true ∧ harness.wdp.illegal = none ∧
    ∀ l ∈ [{ instr := .add, dest := some 0, x := .reg 0, y := some (.reg 1), c := none },
        ({ instr := .cmp, dest := none, x := .reg 0, y := some (.reg 1), c := none } : Line),
        { instr := .sel, dest := some 1, x := .reg 0, y := some (.reg 1), c := some .one },
        { instr := .rcl, dest := some 0, x := .reg 0, y := none, c := some .one },
        { instr := .rcr, dest := some 1, x := .negConst 1, y := none, c := some .c }],
      l.wf harness.wdp.width = true ∧ State.InputsOk { harness.wdp with inputs := harness.drive l } := by decide +kernel
theorem witness_PseudoEffects :
    harness.wdp.factory.wellBuilt = true ∧ harness.wdp.illegal = none ∧
    ∀ q ∈ [Pseudo.mov 2 (.reg 0), .clr 0, .neg 0 (.const 128), .inc 1 (.const 255), .dec 1 (.const 0), .notw 0 (.reg 0),
        .tst (.reg 1)],
      (q.expand 8).wf harness.wdp.width = true ∧
      State.InputsOk { harness.wdp with inputs := harness.drive (q.expand 8) } := by decide +kernel

end Sys2Proof.Tests
end

section
/-! PROOFS. The family of spec/00_scope.md: the realizations agree (R3, R4), what a step leaves unchanged (R8, R30, R32), and
the read-out (R15, R183). -/

namespace Sys2Proof.Machine

/-- Only a state with no recorded fault and no refused input has a next state. -/
theorem ready_of_step_next {s t : State} (h : step s = .next t) : s.illegal = none ∧ s.InputsOk := by
  rcases step_cases s with ⟨c, -, h'⟩ | ⟨-, r, -, h'⟩ | ⟨hi, hs, -⟩
  · rw [h'] at h; cases h
  · rw [h'] at h; cases h
  · exact ⟨hi, hs⟩

theorem inputsOk_of_exec_next {s t : State} {i : Instr} (h : exec i s = .next t) : s.InputsOk := by
  cases he : s.inputError with
  | none => exact he
  | some r => rw [exec_eq, evaluate_refused he] at h; cases h

theorem readOut_eq_none_of_circuit {s : State} (hs : s.InputsOk) (hr : s.factory.realization = .circuit) :
    s.inputs.readOut = none := by
  cases hp : s.inputs.readOut with
  | none => rfl
  | some p => exact absurd ⟨by rw [hp]; rfl, hr⟩ ((inputsOk_iff s).mp hs).2

theorem concrete_of_readOut {s : State} (hs : s.InputsOk) {p : OutPort} (hp : s.inputs.readOut = some p) :
    s.factory.realization = .concrete := by
  cases hr : s.factory.realization with
  | concrete => rfl
  | circuit => rw [readOut_eq_none_of_circuit hs hr] at hp; cases hp

/-- A step reads out exactly the port asked for where the code on `op` is constant and assigned, and nothing for a reserved
or a symbolic one. -/
theorem step_reading {s : State} (hf : s.factory.wellBuilt = true) (hs : s.InputsOk) (hi : s.illegal = none) :
    ∃ t o, step s = .next t ∧ t.outputs = some o ∧
      (∀ c, s.opCode = some c → c ∉ reservedCodes →
        ∀ ρ, o.reading = s.inputs.readOut.map fun p => t.factory.wordValue ρ (o.port p)) ∧
      ((∀ c, s.opCode = some c → c ∈ reservedCodes) → o.reading = none) := by
  rcases step_cases s with ⟨c, h, -⟩ | ⟨-, r, h, -⟩ | ⟨-, -, ⟨c, i, hc, hd, h⟩ | ⟨c, hc, hr, h⟩ | ⟨hc, h⟩⟩
  · rw [hi] at h; cases h
  · rw [show s.inputError = none from hs] at h; cases h
  · obtain ⟨o, f, he, -, -, -, -, -, hread⟩ := evaluate_next hf hs i
    exact ⟨_, o, h.trans he, rfl, fun _ _ _ => hread,
      fun hres => absurd (hres c hc) (not_mem_reserved_of_decode hd)⟩
  · obtain ⟨o, f, he, -, -, -, -, -, -, hread⟩ := takeIllegalOp_next hf hs c
    refine ⟨_, o, h.trans he, rfl, fun c' hc' hn => absurd hr ?_, fun _ => hread⟩
    rwa [Option.some.inj (hc.symm.trans hc')]
  · obtain ⟨o, f, he, -, -, -, hread⟩ := evaluateSymbolicOp_next hf hs
    exact ⟨_, o, h.trans he, rfl, fun c hc' => (by rw [hc] at hc'; cases hc'), fun _ => hread⟩

/-- Settles O25: both steps drive the output function of R67, which sees the port values only. -/
theorem outputsDependOnPortsOnly : Obligations.OutputsDependOnPortsOnly := by
  intro s f inputs outputs xs k ρ ρ' s' hf hs hf' hs' hi hports
  obtain ⟨o, _, _, _, _, hstep, -, -, ha, -⟩ := step_next hf hs hi
  obtain ⟨o', _, _, _, _, hstep', -, -, ha', -⟩ := step_next (s := s') hf' hs' hi
  refine ⟨_, o, _, o', hstep, rfl, hstep', rfl, ?_⟩
  calc o'.values s.width _ ρ' = Functional.outputs (s'.ports ρ') := are_outputs ha' ρ'
    _ = Functional.outputs (s.ports ρ) := congrArg Functional.outputs hports
    _ = o.values s.width _ ρ := (are_outputs ha ρ).symm

/-- Settles O27: a step changes the outputs, the factory by further cells, and the records of IllegalOp only. -/
theorem stepFrame : Obligations.StepFrame := by
  intro s t hf h
  obtain ⟨hi, hs⟩ := ready_of_step_next h
  obtain ⟨o, f, ill, xs, k, hstep, -, hext, -, hill, hconst, hsym⟩ := step_next hf hs hi
  obtain rfl := Host.Outcome.next.inj (h.symm.trans hstep)
  have hprefix : s.illegalIf <+: xs := by
    cases hc : s.opCode with
    | none => rw [(hsym hc).2]; exact List.prefix_append _ _
    | some c => rw [(hconst (by rw [hc]; rfl)).1]
  refine ⟨⟨rfl, rfl, hext⟩, fun ρ x hx => Factory.bitValue_extends hext hx ρ, hi, fun c hc => ?_, hprefix, hconst⟩
  obtain ⟨hop, hres, -⟩ := hill c hc
  exact ⟨hop, hres⟩

/-- Settles O36: `evaluate_next` for `exec`, `step_reading` for `step`, and the check of the inputs for the Circuit
realization. -/
theorem readOut : Obligations.ReadOut := by
  refine ⟨fun s i port hf hs hp => ?_, fun s port hf hs hi hp => ?_,
    fun s t i h hr => readOut_eq_none_of_circuit (inputsOk_of_exec_next h) hr,
    fun s t h hr => readOut_eq_none_of_circuit (ready_of_step_next h).2 hr, fun s t hf h hp => ?_⟩
  · obtain ⟨o, f, he, -, hext, -, -, -, hread⟩ := evaluate_next hf hs i
    refine ⟨o, f, (exec_eq i s).trans he, hext.realization.trans (concrete_of_readOut hs hp), fun ρ => ?_⟩
    rw [hread ρ, hp]
    rfl
  · have hr := concrete_of_readOut hs hp
    obtain ⟨c, hc⟩ := Option.isSome_iff_exists.mp (opCode_concrete hs hr)
    obtain ⟨t, o, hstep, ho, hassigned, hreserved⟩ := step_reading hf hs hi
    refine ⟨hr, c, t, o, hc, hstep, ho, fun hn ρ => ?_, fun hm => hreserved fun c' hc' => ?_⟩
    · rw [hassigned c hc hn ρ, hp]
      rfl
    · rwa [← Option.some.inj (hc.symm.trans hc')]
  · obtain ⟨hi, hs⟩ := ready_of_step_next h
    obtain ⟨t', o, hstep, ho, hassigned, hreserved⟩ := step_reading hf hs hi
    obtain rfl := Host.Outcome.next.inj (h.symm.trans hstep)
    refine ⟨o, ho, ?_⟩
    by_cases hres : ∀ c, s.opCode = some c → c ∈ reservedCodes
    · exact hreserved hres
    · push Not at hres
      obtain ⟨c, hc, hn⟩ := hres
      rw [hassigned c hc hn fun _ => false, hp]
      rfl

end Sys2Proof.Machine
end

section
/-! PROOFS. The family of spec/10_state.md: the state at creation (R33, R201), the invariant that every step keeps (R27, R28,
R32, R181), the flags of every evaluation (R24), and the ports an operation reads (R22). -/

namespace Sys2Proof.Machine

/-- The invariant, clause by clause. -/
theorem inv_iff (s : State) : s.inv = true ↔
    s.factory.wellBuilt = true ∧
    (∀ o, s.outputs = some o → o.fits s.width s.factory = true) ∧
    (∀ c, s.illegal = some c → c ∈ reservedCodes ∧ ∃ o, s.outputs = some o ∧ o.showIllegal s.factory = true) ∧
    ∀ x ∈ s.illegalIf, x.fits s.factory = true := by
  simp only [State.inv, Bool.and_eq_true, List.all_eq_true, and_assoc]
  cases s.outputs <;> cases s.illegal <;> simp

theorem wellBuilt_create (r : Realization) (u : Bool) : (Factory.create r u).wellBuilt = true := by
  simp [Factory.wellBuilt, Factory.create, acyclicFrom]

/-- At creation nothing is driven and nothing recorded, so only the factory has a clause to meet. -/
theorem inv_create (W : Nat) (h : 1 ≤ W) (r : Realization) (u : Bool) : (State.create W h r u).inv = true :=
  (inv_iff _).mpr ⟨wellBuilt_create r u, by simp, by simp, by simp⟩

/-- The record that a symbolic `op` leaves belongs to the factory after the evaluation: `op` is symbolic in the Circuit
realization only (R69), and passed the checks of its port. -/
theorem fits_symbolic_record {s : State} {o : Outputs} {f : Factory} {W : Nat} (hs : s.InputsOk) (hc : s.opCode = none)
    (hext : s.factory.Extends f) (ho : o.fits W f = true) :
    (⟨s.inputs.op, o.ill⟩ : IllegalRecord).fits f = true := by
  obtain ⟨⟨hop, -⟩, -⟩ := (inputsOk_iff s).mp hs
  have hcircuit : s.factory.realization = .circuit := by
    cases hr : s.factory.realization with
    | circuit => rfl
    | concrete => simpa [hc] using opCode_concrete hs hr
  have hill : f.ownsBit o.ill = true := by simpa [Outputs.port] using port_owns ho .ill
  simp [IllegalRecord.fits, hext.realization, hcircuit, hill, realizationOk_extends hext hop.realization,
    acyclic_extends hext hop.acyclic]

/-- Settles O29: `step_next` says what a step drives and records; the earlier records still belong to the factory, since it
only grows. -/
theorem stepKeepsInv : Obligations.StepKeepsInv := by
  intro s t hinv h
  obtain ⟨hf, -, -, hrecords⟩ := (inv_iff s).mp hinv
  obtain ⟨hi, hs⟩ := ready_of_step_next h
  obtain ⟨o, f, ill, xs, k, hstep, hw, hext, ho, hill, hconst, hsym⟩ := step_next hf hs hi
  obtain rfl := Host.Outcome.next.inj (h.symm.trans hstep)
  have hold : ∀ x ∈ s.illegalIf, x.fits f = true := fun x hx => IllegalRecord.fits_extends hext (hrecords x hx)
  refine (inv_iff _).mpr ⟨hw, fun o' ho' => ?_, fun c hc => ?_, ?_⟩
  · cases ho'
    exact ho.fits
  · obtain ⟨-, hres, hshow⟩ := hill c hc
    exact ⟨hres, o, rfl, hshow⟩
  · cases hc : s.opCode with
    | some c =>
      obtain ⟨rfl, -⟩ := hconst (by rw [hc]; rfl)
      exact hold
    | none =>
      obtain ⟨-, rfl⟩ := hsym hc
      simpa [or_imp, forall_and] using And.intro hold (fits_symbolic_record hs hc hext ho.fits)

/-- Settles O28: `inv_create`; the reset state is a creation. -/
theorem invAtCreation : Obligations.InvAtCreation := ⟨inv_create _ _ _ _, inv_create⟩

/-- Settles O30: `State.create` and `Factory.create` state each field. -/
theorem creation : Obligations.Creation := fun W h r u => ⟨rfl, rfl, rfl, create_width W h r u, rfl⟩

/-- Every code, assigned or reserved, drives the flags of `compare(a, b)` (R24). -/
theorem outputs_flags {W : Nat} (p : Functional.Ports W) :
    (Functional.outputs p).lt = Functional.lt p.a p.b ∧ (Functional.outputs p).eq = Functional.eq p.a p.b ∧
      (Functional.outputs p).gt = Functional.gt p.a p.b := by
  unfold Functional.outputs
  cases decode p.op <;> exact ⟨rfl, rfl, rfl⟩

/-- The difference is zero exactly where the operands are equal (R121). -/
theorem functional_eq_decide {W : Nat} (a b : BitVec W) : Functional.eq a b = decide (a = b) := by
  rw [Functional.eq, difference_eq_sub, decide_eq_decide]
  exact (BitVec.toNat_inj (y := 0)).trans sub_eq_zero

/-- The difference is zero exactly where each of its bits is 0, as the zero-detector reads it (R121). -/
theorem functional_eq_all_bits {W : Nat} (a b : BitVec W) :
    Functional.eq a b = (List.range W).all fun i => !(Functional.difference a b).getLsbD i := by
  rw [Functional.eq, Bool.eq_iff_iff, decide_eq_true_iff]
  simp only [List.all_eq_true, List.mem_range, Bool.not_eq_true']
  constructor
  · intro h i _
    simp [BitVec.getLsbD, h]
  · intro h
    have hzero : Functional.difference a b = 0#W := BitVec.eq_of_getLsbD_eq fun i hi => by simp [h i hi]
    simp [hzero]

/-- Settles O15: a step drives the output function, whose flags are those of `compare(a, b)` for every code. -/
theorem flagsAtEveryEvaluation : Obligations.FlagsAtEveryEvaluation := by
  intro s hf hs hi
  obtain ⟨o, f, _, _, _, hstep, -, -, ho, -⟩ := step_next hf hs hi
  refine ⟨_, o, hstep, rfl, fun ρ => ?_⟩
  obtain ⟨hlt, heq, hgt⟩ := outputs_flags (s.ports ρ)
  simp only [are_outputs ho ρ, hlt, heq, hgt]
  exact ⟨rfl, rfl, functional_eq_decide _ _, functional_eq_all_bits _ _, rfl⟩

/-- The ports an operation reads (R22) fix its result. -/
theorem result_congr_of_reads {W : Nat} (i : Instr) {p q : Functional.Ports W} (ha : p.a = q.a)
    (hb : lineTakesY i = true → p.b = q.b) (hctrl : i = .sel → p.ctrl = q.ctrl)
    (hcin : i = .rcl ∨ i = .rcr → p.cin = q.cin) : Functional.result i p = Functional.result i q := by
  cases i with
  | add | sub | cmp | bshl | bshr | bsar | brol | bror => simp only [Functional.result, ha, hb rfl]
  | sel => simp only [Functional.result, ha, hb rfl, hctrl rfl]
  | shl | shr | sar | rol | ror => simp only [Functional.result, ha]
  | rcl => simp only [Functional.result, ha, hcin (.inl rfl)]
  | rcr => simp only [Functional.result, ha, hcin (.inr rfl)]

/-- Settles O23: an evaluation drives `Functional.result` and the flags of `compare(a, b)`. -/
theorem unreadPorts : Obligations.UnreadPorts := by
  intro i s inputs hf hs hs'
  obtain ⟨o, f, he, -, -, -, -, ho, -⟩ := evaluate_next hf hs i
  obtain ⟨o', f', he', -, -, -, -, ho', -⟩ := evaluate_next (s := { s with inputs := inputs }) hf hs' i
  refine ⟨o, f, o', f', (exec_eq i s).trans he, (exec_eq i _).trans he', fun ρ => ?_⟩
  intro p q v w ha hb hctrl hcin
  have hv : v = _ := ho.values ρ
  have hw : w = _ := ho'.values ρ
  have hresult : Functional.result i q = Functional.result i p := (result_congr_of_reads i ha hb hctrl hcin).symm
  rw [hv, hw]
  refine ⟨⟨congrArg Prod.fst hresult, congrArg Prod.snd hresult, rfl⟩, fun hb => ?_⟩
  exact ⟨congrArg₂ Functional.lt ha.symm hb.symm, congrArg₂ Functional.eq ha.symm hb.symm,
    congrArg₂ Functional.gt ha.symm hb.symm⟩

end Sys2Proof.Machine
end

section
/-! PROOFS. The family of spec/20_memory.md: the block has no memory, so equal inputs give equal outputs (R43), and a step runs
the operation whose code stands on `op` (R48, R67). -/

namespace Sys2Proof.Machine

theorem decode_encode (i : Instr) : decode (encode i) = .ok i := by cases i <;> rfl

/-- A constant code that the decoder assigns to `i` selects `exec i` (R67). -/
theorem step_of_opCode {s : State} {c : BitVec 5} {i : Instr} (hi : s.illegal = none) (hc : s.opCode = some c)
    (hd : decode c = .ok i) : step s = exec i s := by
  simp only [step, hi, hc, hd]

/-- A control word driven on `op` is the code that stands there (log entry 2). -/
@[simp] theorem withFetchWord_opCode (s : State) (n : Nat) (c : BitVec 5) :
    (s.withFetchWord n c.toNat).opCode = some c := by
  have hrange : (0 : Int) ≤ c.toNat ∧ (c.toNat : Int) < 32 := by have := c.isLt; omega
  simp [State.opCode, hrange]

/-- Settles O4: `step_of_opCode` at the code of the instruction, which decodes to it; `withFetchWord` puts it on `op`. -/
theorem stepRunsDecoded : Obligations.StepRunsDecoded :=
  ⟨fun _ i hi hc => step_of_opCode hi hc (decode_encode i),
    fun s n i hi => step_of_opCode (s := s.withFetchWord n _) hi (withFetchWord_opCode s n _) (decode_encode i)⟩

/-- Inputs that are not refused stay so as the factory grows. -/
theorem inputsOk_extends {s : State} {f : Factory} (hs : s.InputsOk) (e : s.factory.Extends f) :
    State.InputsOk { s with factory := f } := by
  obtain ⟨⟨hop, ha, hb, hctrl, hcin⟩, hread⟩ := (inputsOk_iff s).mp hs
  refine (inputsOk_iff _).mpr ⟨⟨hop.extends e, ha.extends e, hb.extends e, hctrl.extends e, hcin.extends e⟩, ?_⟩
  rwa [← e.realization] at hread

/-- The input ports keep their values as the factory grows (R43). -/
theorem ports_extends {s : State} {f : Factory} (hs : s.InputsOk) (e : s.factory.Extends f) (ρ : Assignment) :
    State.ports { s with factory := f } ρ = s.ports ρ := by
  have hbits : ∀ {d : Drive} {W : Nat}, d.Ok s.factory s.width W → d.bits f ρ W = d.bits s.factory ρ W :=
    fun hd => bits_extends hd.realization hd.acyclic e ρ _
  obtain ⟨⟨hop, ha, hb, hctrl, hcin⟩, -⟩ := (inputsOk_iff s).mp hs
  simp only [State.ports, Drive.bit, hbits hop, hbits ha, hbits hb, hbits hctrl, hbits hcin]

/-- Settles O26: the first step leaves the inputs, and a factory that has only grown, so the second drives the output function
of R67 on the same port values. -/
theorem sameInputsSameOutputs : Obligations.SameInputsSameOutputs := by
  intro s t hf h ht
  obtain ⟨hi, hs⟩ := ready_of_step_next h
  obtain ⟨o, f, ill, xs, k, hstep, hw, hext, ho, -⟩ := step_next hf hs hi
  obtain rfl := Host.Outcome.next.inj (h.symm.trans hstep)
  obtain ⟨o', f', _, _, _, hstep', -, -, ho', -⟩ := step_next
    (s := { s with factory := f, outputs := some o, illegal := ill, illegalIf := xs, freeIndex := k })
    hw (inputsOk_extends hs hext) ht
  refine ⟨o, _, o', rfl, hstep', rfl, fun ρ => ?_⟩
  calc o'.values s.width f' ρ = Functional.outputs (State.ports { s with factory := f } ρ) := are_outputs ho' ρ
    _ = Functional.outputs (s.ports ρ) := by rw [ports_extends hs hext ρ]
    _ = o.values s.width f ρ := (are_outputs ho ρ).symm

end Sys2Proof.Machine
end

section
/-! PROOFS. The family of spec/30_encoding.md: the decoder and the encoder (R60 to R68, R74), the evaluation that `op`
selects, with a reserved or symbolic code too (R66, R67, R69, R181), and constant words (R70). -/

namespace Sys2Proof.Machine

/-! ### Decoding -/

theorem encode_of_mem_decode : ∀ c : BitVec 5, ∀ i ∈ (decode c).toOption, encode i = c := by decide

theorem encode_of_decode {c : BitVec 5} {i : Instr} (h : decode c = .ok i) : encode i = c :=
  encode_of_mem_decode c i (by rw [h]; rfl)

/-- The decoder's one error is the reserved code itself. -/
theorem eq_reserved_of_decode {c : BitVec 5} {e : DecodeError} (h : decode c = .error e) : e = .reserved c := by
  unfold decode at h
  split at h <;> cases h
  rfl

theorem mem_reservedCodes_iff (c : BitVec 5) : c ∈ reservedCodes ↔ decode c = .error (.reserved c) := by
  refine ⟨fun hc => ?_, mem_reserved_of_decode⟩
  cases hd : decode c with
  | ok i => exact absurd hc (not_mem_reserved_of_decode hd)
  | error e => rw [eq_reserved_of_decode hd]

/-- Settles O1: the decoder evaluated on the codes of the map, and on the 32 codes for family 11. -/
theorem opcodeMap : Obligations.OpcodeMap :=
  ⟨by decide, by decide, by decide, by decide, by decide, by decide, by decide⟩

/-- Settles O2: the decoder inverts the encoder on both sides, and rejects exactly the list of R66. -/
theorem decodeEncodeAgree : Obligations.DecodeEncodeAgree :=
  ⟨fun i _ => decode_encode i, fun _ _ => encode_of_decode, mem_reservedCodes_iff, rfl⟩

/-- The word of the low bits of a number is the number modulo `2^W`. -/
theorem wordOf_testBits (W n : Nat) : wordOf W ((List.range W).map fun i => n.testBit i) = BitVec.ofNat W n := by
  refine BitVec.eq_of_getLsbD_eq fun i hi => ?_
  rw [wordOf_getLsbD (by simp), getD_map_range _ _ _ hi, BitVec.getLsbD_ofNat, decide_eq_true hi, Bool.true_and]

/-- A code is the word of its bits. -/
theorem wordOf_bits {W : Nat} (c : BitVec W) : wordOf W ((List.range W).map fun k => c.getLsbD k) = c :=
  (wordOf_testBits W c.toNat).trans (by simp)

/-- A list of bits is read back from its word. -/
theorem bits_wordOf {W : Nat} {bits : List Bool} (h : bits.length = W) :
    (List.range W).map (fun k => (wordOf W bits).getLsbD k) = bits :=
  list_eq_of_getD (by simp [h]) fun i hi => by
    rw [getD_map_range _ _ _ (by simpa using hi), wordOf_getLsbD h]

theorem decodeBits_of_length {bits : List Bool} (h : bits.length = 5) : decodeBits bits = decode (wordOf 5 bits) := by
  simp [decodeBits, controlWordWf, h, uval_codeOfBits, wordOf]

theorem decodeBits_of_length_ne {bits : List Bool} (h : bits.length ≠ 5) :
    decodeBits bits = .error (.badLength bits.length) := by
  simp [decodeBits, controlWordWf, h]

/-- Settles O3: on five bits the decoder reads the word of the bits, whose bits they are. -/
theorem decodeBitsExact : Obligations.DecodeBitsExact := by
  refine ⟨fun bits i => ⟨fun h => ?_, ?_⟩, fun _ => decodeBits_of_length_ne⟩
  · by_cases hl : bits.length = 5
    · rw [decodeBits_of_length hl] at h
      rw [encode_of_decode h, bits_wordOf hl]
    · rw [decodeBits_of_length_ne hl] at h
      cases h
  · rintro rfl
    rw [decodeBits_of_length (by simp), wordOf_bits, decode_encode]

/-! ### The evaluation that `op` selects -/

/-- Settles O24: `step_next`, whose outputs are those of R67. -/
theorem stepDrivesOutputFunction : Obligations.StepDrivesOutputFunction := by
  intro s hf hs hi
  obtain ⟨o, f, _, _, _, hstep, -, hext, ho, -⟩ := step_next hf hs hi
  exact ⟨_, ⟨hstep, o, rfl, ho.fits, are_outputs ho⟩, rfl, rfl, hext⟩

theorem step_of_illegal {s : State} {c : BitVec 5} (h : s.illegal = some c) : step s = .fault (.illegalOp c) := by
  simp only [step, h]

theorem step_of_reserved {s : State} {c : BitVec 5} (hi : s.illegal = none) (hc : s.opCode = some c)
    (hr : c ∈ reservedCodes) : step s = takeIllegalOp c s := by
  simp only [step, hi, hc, (mem_reservedCodes_iff c).mp hr]

theorem step_of_symbolic {s : State} (hi : s.illegal = none) (hc : s.opCode = none) : step s = evaluateSymbolicOp s := by
  simp only [step, hi, hc]

/-- Settles O31: a reserved code takes IllegalOp, whose outputs are constant beside the flags of `compare(a, b)`; the code it
records stops the next step. -/
theorem illegalOpTaken : Obligations.IllegalOpTaken := by
  intro s c hf hs hi hc hr
  obtain ⟨o, f, he, -, hext, -, -, ho, -⟩ := takeIllegalOp_next hf hs c
  refine ⟨o, f, (step_of_reserved hi hc hr).trans he, hext, ho.fits, step_of_illegal rfl, fun ρ => ?_⟩
  intro p v
  have hv : v = _ := ho.values ρ
  rw [hv, ← difference_eq_sub]
  exact ⟨rfl, rfl, rfl, rfl, functional_eq_decide _ _, rfl⟩

/-- Where an evaluation with a symbolic `op` goes on, it takes the free counts and the next index (log entry 6). -/
theorem eq_of_evaluateSymbolicOp_next {s t : State} (h : evaluateSymbolicOp s = .next t) :
    ∃ f, t.factory = s.freeCounts f ∧ t.freeIndex = s.freeIndex + 1 := by
  unfold evaluateSymbolicOp at h
  split at h
  · cases h
  · cases h
    exact ⟨_, rfl, rfl⟩

/-- Settles O38: the counters after a symbolic `op` are those of `State.freeCounts`. -/
theorem symbolicOpCounts : Obligations.SymbolicOpCounts := by
  intro s t hi hc h
  obtain ⟨f, hfactory, hindex⟩ := eq_of_evaluateSymbolicOp_next ((step_of_symbolic hi hc).symm.trans h)
  exact ⟨by rw [State.counters, hfactory]; rfl, hindex⟩

/-- A code is reserved exactly where it drives `ill`, and then `r` and `cout` are 0 (R66). -/
theorem outputs_ill {W : Nat} (p : Functional.Ports W) :
    (Functional.outputs p).ill = decide (p.op ∈ reservedCodes) ∧
      (p.op ∈ reservedCodes → (Functional.outputs p).r = 0 ∧ (Functional.outputs p).cout = false) := by
  unfold Functional.outputs
  cases hd : decode p.op with
  | ok i => simp [Functional.instrOutputs, not_mem_reserved_of_decode hd]
  | error e => simp [Functional.illegalOutputs, mem_reserved_of_decode hd]

/-- Once a fault is recorded under an assignment, its run stops and may use no output (R181). -/
theorem stops_of_illegalUnder {s : State} {ρ : Assignment} {c : BitVec 5} (h : s.illegalUnder ρ = some c) :
    s.outputsUnder ρ = none ∧ stepUnder ρ s = .fault (.illegalOp c) := by
  simp only [State.outputsUnder, stepUnder, h, and_self]

/-- Settles O49: the step drives the output function of R67, and `step_illegalUnder` says what it records under each
assignment. -/
theorem symbolicIllegalOp : Obligations.SymbolicIllegalOp := by
  intro s hinv hs hi hc
  obtain ⟨hf, -⟩ := (inv_iff s).mp hinv
  obtain ⟨o, f, ill, xs, k, hstep, -, -, ho, -, -, hsym⟩ := step_next hf hs hi
  obtain ⟨rfl, -⟩ := hsym hc
  refine ⟨_, o, hstep, rfl, rfl, fun ρ => ?_⟩
  obtain ⟨hill, hzero⟩ := outputs_ill (s.ports ρ)
  have hrec := step_illegalUnder hinv hstep ρ
  simp only [are_outputs ho ρ]
  refine ⟨hill, fun hr => ?_, fun hr => ?_⟩
  · rw [if_pos hr, Option.or_some] at hrec
    obtain ⟨hout, hstop⟩ := stops_of_illegalUnder hrec
    exact ⟨(hzero hr).1, (hzero hr).2, hout, hrec, hstop⟩
  · rwa [if_neg hr, Option.or_none] at hrec

/-! ### Constant words -/

/-- Two facts about the result of one construction. -/
theorem Build.Does.and {α : Type} {m : Build α} {f : Factory} {na nx : Nat} {Q R : α → Factory → Prop}
    (hQ : Build.Does m f na nx Q) (hR : Build.Does m f na nx R) : Build.Does m f na nx fun a f' => Q a f' ∧ R a f' := by
  intro hf
  obtain ⟨a, f', e, hf', he, ca, cx, hq⟩ := hQ hf
  obtain ⟨b, g', e', -, -, -, -, hr⟩ := hR hf
  obtain ⟨rfl, rfl⟩ := Prod.mk.inj (Except.ok.inj (e.symm.trans e'))
  exact ⟨a, f', e, hf', he, ca, cx, hq, hr⟩

/-- Every bit of a constant word is constant. -/
theorem constBits_constant (n k : Nat) (f : Factory) :
    Build.Does (constBits n k) f 0 0 fun w f' => ∀ x ∈ w, ∃ v, f'.constValue x = some v := by
  induction n generalizing k f with
  | zero => exact Build.Does.ret (by simp)
  | succ n ih =>
    refine Build.Does.bind (na' := 0) (nx' := 0) (constCell_does f _) fun x f1 e1 h1 => ?_
    refine Build.Does.bind (na' := 0) (nx' := 0) (ih (k / 2) f1) fun xs f2 e2 h2 => ?_
    exact Build.Does.ret (List.forall_mem_cons.mpr ⟨⟨_, constValue_extends e2 h1.2⟩, h2⟩)

/-- A constant bit of the Circuit realization is a CONST node (R80). -/
theorem constNode_of_constValue {f : Factory} (hr : f.realization = .circuit) {x : Bit} (hx : f.ownsBit x = true) {v : Bool}
    (h : f.constValue x = some v) : ∃ n, x = .symbolic n ∧ f.graph[n]? = some (.constant v) := by
  rcases ownsBit_cases hx with ⟨hr', -⟩ | ⟨-, n, rfl, hn⟩
  · rw [hr] at hr'; cases hr'
  · refine ⟨n, rfl, ?_⟩
    rw [Factory.constValue] at h
    split at h
    · next hnode => rw [hnode, Option.some.inj h]
    · cases h

/-- Settles O46: in range the constant word is `constBits`, whose bits are those of the number; out of range the check
refuses. -/
theorem fromConstant_spec : Obligations.FromConstant := by
  refine fun f W k hf => ⟨fun h0 hk => ?_, fun h => by simp only [fromConstant, if_neg h]; rfl⟩
  obtain ⟨w, f', he, hf', hext, ha, hx, hw, hconst⟩ :=
    (constBits_does W k.toNat f).and (constBits_constant W k.toNat f) hf
  have hbits : ∀ ρ, f'.wordBits ρ w = (List.range W).map fun i => k.toNat.testBit i := fun ρ => by
    rw [wordBits_of_denotes hw ρ, valuesAt, List.map_map]; rfl
  have hlt : k.toNat < 2 ^ W := (Int.toNat_lt h0).mpr (by exact_mod_cast hk)
  refine ⟨w, f', by rw [fromConstant, if_pos ⟨h0, hk⟩, he], ⟨hf', hext, ha, hx⟩, by simp [hw.length_eq], hbits,
    fun ρ => ?_, fun hr x hxw => ?_⟩
  · rw [Factory.wordValue, hbits ρ, ← wordOf_toNat (W := W) (by simp), wordOf_testBits, BitVec.toNat_ofNat,
      Nat.mod_eq_of_lt hlt, Int.toNat_of_nonneg h0]
  · obtain ⟨v, hv⟩ := hconst x hxw
    have hown : f'.ownsBit x = true := List.all_eq_true.mp (denotesWord_owns hw) x hxw
    obtain ⟨n, hn⟩ := constNode_of_constValue (hext.realization.trans hr) hown hv
    exact ⟨n, v, hn⟩

end Sys2Proof.Machine
end

section
/-! PROOFS. The harness of spec/30_encoding.md: a line evaluates the block on what the harness held before it and latches the
outputs (R72, R206), and the effects of the pseudo-instructions follow from the rules of their lines (R73). -/

namespace Sys2Proof.Machine

/-- The block of a harness with the ports driven for a line. -/
abbrev Harness.driven (h : Harness) (l : Line) : State := { h.wdp with inputs := h.drive l }

/-- The code on `op` of a line is that of its mnemonic. -/
theorem driven_opCode (h : Harness) (l : Line) : (h.driven l).opCode = some (encode l.instr) :=
  withFetchWord_opCode (h.driven l) 0 (encode l.instr)

/-! ### What a harness holds after a line -/

theorem getD_setWord_same (x : Drive) (i : Nat) (ws : List Drive) : (setWord x i ws).getD i .undriven = x := by
  induction i generalizing ws with
  | zero => cases ws <;> rfl
  | succ i ih => cases ws <;> exact ih _

theorem getD_setWord_other (x : Drive) {i j : Nat} (ws : List Drive) (h : i ≠ j) :
    (setWord x i ws).getD j .undriven = ws.getD j .undriven := by
  induction i generalizing j ws with
  | zero =>
    cases j with
    | zero => exact absurd rfl h
    | succ j => cases ws <;> rfl
  | succ i ih =>
    cases j with
    | zero => cases ws <;> rfl
    | succ j =>
      have hij : i ≠ j := fun e => h (congrArg Nat.succ e)
      cases ws with
      | nil => exact (ih [] hij).trans rfl
      | cons w ws => exact ih ws hij

theorem latch_word_dest (h : Harness) (s : State) (o : Outputs) (d : Nat) :
    (h.latch s o (some d)).words.getD d .undriven = .word o.r :=
  getD_setWord_same _ d h.words

theorem latch_word_other (h : Harness) (s : State) (o : Outputs) {dest : Option Nat} {j : Nat} (hj : dest ≠ some j) :
    (h.latch s o dest).words.getD j .undriven = h.words.getD j .undriven := by
  cases dest with
  | none => rfl
  | some d => exact getD_setWord_other _ h.words fun e => hj (congrArg some e)

/-- The harness `h'` is `h` after a line with the destination `dest` whose evaluation drove the values `v`: `r` stands in the
destination, `cout` and the flags in the four bits, and every other word as before (R72). -/
structure Harness.Latches (h h' : Harness) (dest : Option Nat) (v : Assignment → Functional.Values h.wdp.width) :
    Prop where
  word : ∀ ρ d, dest = some d →
    wordOf h.wdp.width ((h'.words.getD d .undriven).bits h'.wdp.factory ρ h.wdp.width) = (v ρ).r
  other : ∀ j, dest ≠ some j → h'.words.getD j .undriven = h.words.getD j .undriven
  c : ∀ ρ, h'.c.bit h'.wdp.factory ρ 1 = (v ρ).cout
  lt : ∀ ρ, h'.lt.bit h'.wdp.factory ρ 1 = (v ρ).lt
  eq : ∀ ρ, h'.eq.bit h'.wdp.factory ρ 1 = (v ρ).eq
  gt : ∀ ρ, h'.gt.bit h'.wdp.factory ρ 1 = (v ρ).gt

theorem latch_latches (h : Harness) (s : State) (o : Outputs) (dest : Option Nat) :
    h.Latches (h.latch s o dest) dest fun ρ => o.values h.wdp.width s.factory ρ where
  word := by
    rintro ρ d rfl
    rw [latch_word_dest]
    rfl
  other _ hj := latch_word_other h s o hj
  c _ := rfl
  lt _ := rfl
  eq _ := rfl
  gt _ := rfl

/-- A line completes, and the harness latches the values of the mnemonic's rule on what stood on the ports. -/
theorem runLine_latches {h : Harness} {l : Line} (hf : h.wdp.factory.wellBuilt = true) (hi : h.wdp.illegal = none)
    (hs : (h.driven l).InputsOk) :
    ∃ h', h.runLine l = .next h' ∧
      h.Latches h' l.dest fun ρ => Functional.instrOutputs l.instr ((h.driven l).ports ρ) := by
  obtain ⟨o, f, he, -, -, -, -, ho, -⟩ := evaluate_next (s := h.driven l) hf hs l.instr
  have hstep : step (h.driven l) = .next { h.driven l with factory := f, outputs := some o } := by
    rw [step_of_opCode (s := h.driven l) hi (driven_opCode h l) (decode_encode _), exec_eq, he]
  have hvalues : (fun ρ => Functional.instrOutputs l.instr ((h.driven l).ports ρ)) =
      fun ρ => o.values h.wdp.width f ρ := funext fun ρ => (ho.values ρ).symm
  refine ⟨_, by rw [Harness.runLine, hstep], ?_⟩
  rw [hvalues]
  exact latch_latches h _ o l.dest

/-! ### What a line drives -/

/-- A literal in the place of a word is the number modulo `2^W`. -/
theorem word_literal (f : Factory) (ρ : Assignment) (W : Nat) (k : Int) :
    wordOf W ((Drive.literal k).bits f ρ W) = BitVec.ofNat W k.toNat := wordOf_testBits W k.toNat

/-- `word(k)` of R11 is the number that the harness drives for `#-k` (R72). -/
theorem ofNat_toNat_emod (W : Nat) (k : Int) : BitVec.ofNat W (k % 2 ^ W).toNat = BitVec.ofInt W k := by
  have h : (k % 2 ^ W).toNat = (BitVec.ofInt W k).toNat := by rw [BitVec.toNat_ofInt]; norm_cast
  rw [h, BitVec.ofNat_toNat, BitVec.setWidth_eq]

/-- The value of a word source before a line (R72). -/
def Harness.sourceValue (h : Harness) (ρ : Assignment) : WordSrc → BitVec h.wdp.width
  | .reg i => wordOf h.wdp.width ((h.words.getD i .undriven).bits h.wdp.factory ρ h.wdp.width)
  | .const k => BitVec.ofNat h.wdp.width k
  | .negConst k => BitVec.ofInt h.wdp.width (-(k : Int))

theorem word_source (h : Harness) (ρ : Assignment) (x : WordSrc) :
    wordOf h.wdp.width ((h.word h.wdp.width x).bits h.wdp.factory ρ h.wdp.width) = h.sourceValue ρ x := by
  cases x with
  | reg i => rfl
  | const k => exact word_literal _ ρ _ k
  | negConst k => exact (word_literal _ ρ _ _).trans (ofNat_toNat_emod _ _)

/-- The value of a bit source before a line, 0 where there is none (R72). -/
def Harness.sourceBit (h : Harness) (ρ : Assignment) : Option BitSrc → Bool
  | none => false
  | some .zero => false
  | some .one => true
  | some .c => h.c.bit h.wdp.factory ρ 1
  | some .lt => h.lt.bit h.wdp.factory ρ 1
  | some .eq => h.eq.bit h.wdp.factory ρ 1
  | some .gt => h.gt.bit h.wdp.factory ρ 1

theorem bit_source (h : Harness) (ρ : Assignment) (x : BitSrc) :
    (h.bit x).bit h.wdp.factory ρ 1 = h.sourceBit ρ (some x) := by cases x <;> rfl

/-- The bit source of a line where the mnemonic puts it on a port, and the literal 0 elsewhere. -/
def Harness.bitDrive (h : Harness) (c : Option BitSrc) (used : Bool) : Drive :=
  if used then c.elim (.literal 0) h.bit else .literal 0

theorem bit_bitDrive (h : Harness) (ρ : Assignment) (c : Option BitSrc) (used : Bool) :
    (h.bitDrive c used).bit h.wdp.factory ρ 1 = if used then h.sourceBit ρ c else false := by
  cases used with
  | false => rfl
  | true =>
    cases c with
    | none => rfl
    | some x => exact bit_source h ρ x

/-- The arms of `Harness.drive` for `ctrl`, for each mnemonic, with and without a bit source. -/
theorem drive_ctrl (h : Harness) (l : Line) : (h.drive l).ctrl = h.bitDrive l.c (l.instr = .sel) := by
  obtain ⟨i, dest, x, y, c⟩ := l
  cases i <;> cases c <;> rfl

/-- The arms of `Harness.drive` for `cin`. -/
theorem drive_cin (h : Harness) (l : Line) : (h.drive l).cin = h.bitDrive l.c (l.instr = .rcl ∨ l.instr = .rcr) := by
  obtain ⟨i, dest, x, y, c⟩ := l
  cases i <;> cases c <;> rfl

/-- The values on the ports for a line (R72, log entry 14). -/
theorem driven_ports (h : Harness) (l : Line) (ρ : Assignment) :
    (h.driven l).ports ρ =
      { op := encode l.instr
        a := h.sourceValue ρ l.x
        b := match l.y with
          | some y => h.sourceValue ρ y
          | none => 0
        ctrl := if l.instr = .sel then h.sourceBit ρ l.c else false
        cin := if l.instr = .rcl ∨ l.instr = .rcr then h.sourceBit ρ l.c else false } := by
  have hop : ((h.driven l).ports ρ).op = encode l.instr := (word_literal _ ρ 5 _).trans (by simp)
  have hb : ((h.driven l).ports ρ).b = match l.y with
      | some y => h.sourceValue ρ y
      | none => 0 := by
    obtain ⟨i, dest, x, y, c⟩ := l
    cases y with
    | none => exact word_literal _ ρ _ 0
    | some y => exact word_source h ρ y
  have hctrl : ((h.driven l).ports ρ).ctrl = if l.instr = .sel then h.sourceBit ρ l.c else false := by
    show (h.drive l).ctrl.bit h.wdp.factory ρ 1 = _
    simp only [drive_ctrl, bit_bitDrive, decide_eq_true_eq]
  have hcin : ((h.driven l).ports ρ).cin =
      if l.instr = .rcl ∨ l.instr = .rcr then h.sourceBit ρ l.c else false := by
    show (h.drive l).cin.bit h.wdp.factory ρ 1 = _
    simp only [drive_cin, bit_bitDrive, decide_eq_true_eq]
  rw [← hop, ← hb, ← hctrl, ← hcin, ← word_source h ρ l.x]
  rfl

/-- Settles O47: `driven_ports` for what is read, `runLine_latches` for what is written back. -/
theorem lineWritesBack : Obligations.LineWritesBack := by
  intro h l _ hf hi hs
  obtain ⟨h', hrun, hl⟩ := runLine_latches hf hi hs
  refine ⟨h', hrun, hl.other, fun ρ => ?_⟩
  intro W g source bit p v f
  have hports : (h.driven l).ports ρ = p := driven_ports h l ρ
  have hv : Functional.instrOutputs l.instr ((h.driven l).ports ρ) = v := by rw [hports]
  rw [← hv]
  exact ⟨hports, hl.word ρ, hl.c ρ, hl.lt ρ, hl.eq ρ, hl.gt ρ⟩

/-! ### The pseudo-instructions -/

theorem add_eq {W : Nat} (a b : BitVec W) : (Functional.add a b).1 = a + b := by
  calc (Functional.add a b).1 = BitVec.ofNat W (a.toNat + b.toNat) := word_nat W _
    _ = a + b := by simp [BitVec.ofNat_add]

theorem shl_zero (W : Nat) : (Functional.shl (0 : BitVec W)).1 = 0 := by
  refine BitVec.eq_of_getLsbD_eq fun i _ => ?_
  simp [Functional.shl, Functional.left, bitsOf_getLsbD]

theorem ofInt_neg_toNat {W : Nat} (x : BitVec W) : BitVec.ofInt W (-(x.toNat : Int)) = 0 - x := by
  simp [BitVec.ofInt_neg]

theorem ofInt_toNat_sub_one {W : Nat} (x : BitVec W) :
    BitVec.ofInt W ((x.toNat : Int) - 1) = x - BitVec.ofNat W 1 := by
  rw [Int.sub_eq_add_neg, BitVec.ofInt_add, BitVec.ofInt_neg, BitVec.ofInt_natCast, BitVec.ofNat_toNat, BitVec.setWidth_eq,
    BitVec.sub_eq_add_neg]
  rfl

theorem ofNat_pow_sub_one_sub {W : Nat} (x : BitVec W) : BitVec.ofNat W (2 ^ W - 1) - x = ~~~x := by
  have hones : BitVec.ofNat W (2 ^ W - 1) = BitVec.allOnes W := BitVec.eq_of_toNat_eq (by simp)
  rw [hones, BitVec.allOnes_sub_eq_not]

/-- Settles O48: the rule of each line, on the sources as the ports hold them. -/
theorem pseudoEffects : Obligations.PseudoEffects := by
  intro h q hf hi _ hs
  obtain ⟨h', hrun, hl⟩ := runLine_latches hf hi hs
  refine ⟨h', hrun, fun ρ => ?_⟩
  intro W before after
  have hconst (k : Nat) : before (.const k) = BitVec.ofNat W k := word_literal _ ρ W k
  cases q with
  | mov d x =>
    calc after d = Functional.sel _ (before x) (before x) := hl.word ρ d rfl
      _ = before x := by rw [sel_eq, ite_self]
  | clr d =>
    calc after d = (Functional.shl (before (.const 0))).1 := hl.word ρ d rfl
      _ = 0 := by rw [hconst]; exact shl_zero W
  | neg d x =>
    calc after d = (Functional.sub (before (.const 0)) (before x)).1 := hl.word ρ d rfl
      _ = BitVec.ofInt W (-((before x).toNat : Int)) := by rw [sub_eq, hconst, ofInt_neg_toNat]; rfl
  | inc d x =>
    calc after d = (Functional.add (before x) (before (.const 1))).1 := hl.word ρ d rfl
      _ = BitVec.ofNat W ((before x).toNat + 1) := by
        rw [add_eq, hconst, BitVec.ofNat_add, BitVec.ofNat_toNat, BitVec.setWidth_eq]
  | dec d x =>
    calc after d = (Functional.sub (before x) (before (.const 1))).1 := hl.word ρ d rfl
      _ = BitVec.ofInt W (((before x).toNat : Int) - 1) := by rw [sub_eq, hconst, ofInt_toNat_sub_one]
  | notw d x =>
    calc after d = (Functional.sub (before (.const (2 ^ W - 1))) (before x)).1 := hl.word ρ d rfl
      _ = ~~~(before x) := by rw [sub_eq, hconst, ofNat_pow_sub_one_sub]
  | tst x =>
    have hdiff : Functional.difference (before x) (before (.const 0)) = before x := by
      rw [difference_eq_sub, hconst]; exact sub_zero _
    refine ⟨(hl.lt ρ).trans ?_, (hl.eq ρ).trans ?_⟩
    · show (Functional.difference (before x) (before (.const 0))).getLsbD _ = _
      rw [hdiff]
    · show decide ((Functional.difference (before x) (before (.const 0))).toNat = 0) = _
      rw [hdiff]

end Sys2Proof.Machine
end

section
/-! PROOFS. The family of spec/40_gate_cells.md: the primitive cells with their nodes (R80 to R83), the cells derived from them
(R84 to R88), their word forms (R90, R91), and the refusals that stand after the errors of use (R81, R203). -/

namespace Sys2Proof.Machine

/-! ### Refusals after the errors of use -/

theorem step_of_inputError {s : State} {r : Refusal} (hi : s.illegal = none) (h : s.inputError = some r) :
    step s = .refused r := by
  rcases step_cases s with ⟨c, hc, -⟩ | ⟨-, r', hr', hstep⟩ | ⟨-, hs, -⟩
  · rw [hi] at hc; cases hc
  · rw [hstep, Option.some.inj (hr'.symm.trans h)]
  · rw [show s.inputError = none from hs] at h; cases h

/-- The errors of use: what R182 lists, in the order in which R185 has them refused. -/
def errorsOfUse : List Refusal :=
  [.literalOutOfRange, .widthMismatch, .realizationMismatch, .symbolicExtract, .combinationalCycle]

/-- A chain of checks that does not answer the refusal of its first is the chain of the others. -/
theorem eq_later_checks {c : Prop} [Decidable c] {r : Refusal} {x later : Option Refusal}
    (hx : x = if c then some r else later) (h : x ≠ some r) : x = later :=
  hx.trans (if_neg fun hc => h (hx.trans (if_pos hc)))

/-- Without an error of use only the two last checks are left, in the order of log entry 4. -/
theorem inputError_of_no_errorOfUse {s : State} (h : ∀ r ∈ errorsOfUse, s.inputError ≠ some r) :
    s.inputError =
      if !(s.drives.all fun d => d.2.inputOk s.factory) then some .inputOnConcrete
      else if !(s.drives.all fun d => d.2.driven) then some .undrivenPort
      else none := by
  simp only [errorsOfUse, List.forall_mem_cons] at h
  obtain ⟨hliteral, hwidth, hrealization, hextract, hcycle, -⟩ := h
  exact eq_later_checks (eq_later_checks (eq_later_checks (eq_later_checks (eq_later_checks
    rfl hliteral) hwidth) hrealization) hextract) hcycle

theorem inputOk_eq_false_iff (d : Drive) (f : Factory) :
    d.inputOk f = false ↔ f.realization = .concrete ∧ ∃ l, d = .inputs l := by
  cases d <;> cases hr : f.realization <;> simp [Drive.inputOk, hr]

theorem driven_eq_false_iff (d : Drive) : d.driven = false ↔ d = .undriven := by
  cases d <;> simp [Drive.driven]

theorem all_inputOk_eq_false_iff (s : State) : (s.drives.all fun d => d.2.inputOk s.factory) = false ↔
    s.factory.realization = .concrete ∧ ∃ d ∈ s.drives, ∃ l, d.2 = .inputs l := by
  simp only [List.all_eq_false, Bool.not_eq_true, inputOk_eq_false_iff, and_left_comm, exists_and_left]

theorem all_driven_eq_false_iff (s : State) :
    (s.drives.all fun d => d.2.driven) = false ↔ ∃ d ∈ s.drives, d.2 = .undriven := by
  simp only [List.all_eq_false, Bool.not_eq_true, driven_eq_false_iff]

/-- Settles O34: the two checks that are left name the refusal of the step, and where both pass `step_next` gives the next
state. -/
theorem otherInputsRefused : Obligations.OtherInputsRefused := by
  intro s hi huse input undriven
  have hinput := all_inputOk_eq_false_iff s
  have hundriven := all_driven_eq_false_iff s
  have herror := inputError_of_no_errorOfUse huse
  have passInput (hn : ¬ input) := Bool.eq_true_of_not_eq_false (mt hinput.mp hn)
  have passDriven (hn : ¬ undriven) := Bool.eq_true_of_not_eq_false (mt hundriven.mp hn)
  refine ⟨fun h => step_of_inputError hi ?_, fun hn h => step_of_inputError hi ?_, fun hn hn' hf => ?_⟩
  · rw [herror, hinput.mpr h]; rfl
  · rw [herror, passInput hn, hundriven.mpr h]; rfl
  · have hs : s.InputsOk := by rw [State.InputsOk, herror, passInput hn, passDriven hn']; rfl
    obtain ⟨o, f, ill, xs, k, hstep, -⟩ := step_next hf hs hi
    exact ⟨_, hstep⟩

/-! ### The cells as calls on a factory -/

/-- What a construction does from a well-built factory, in the terms of the statements. -/
theorem Build.Does.calls {α : Type} {m : Build α} {f : Factory} {na nx : Nat} {Q : α → Factory → Prop}
    (h : Build.Does m f na nx Q) (hf : f.wellBuilt = true) :
    ∃ a f', m f = .ok (a, f') ∧ f.Calls f' na nx ∧ Q a f' := by
  obtain ⟨a, f', he, hf', hext, ha, hx, hQ⟩ := h hf
  exact ⟨a, f', he, ⟨hf', hext, ha, hx⟩, hQ⟩

/-- A bit of the factory denotes its own value. -/
theorem denotes_self {f : Factory} {x : Bit} (h : f.ownsBit x = true) : f.Denotes x fun ρ => f.bitValue ρ x :=
  ⟨h, fun _ => rfl⟩

/-- A bit of the Circuit realization is a node of its graph. -/
theorem exists_node_of_ownsBit {f : Factory} (hr : f.realization = .circuit) {x : Bit} (hx : f.ownsBit x = true) :
    ∃ n, x = .symbolic n ∧ n < f.graph.length := by
  rcases ownsBit_cases hx with ⟨hr', -⟩ | ⟨-, h⟩
  · rw [hr] at hr'; cases hr'
  · exact h

/-- A gate cell that emits a node on its two operands answers that node. -/
theorem gate_node {cell : Bit → Bit → Build Bit} {node : Nat → Nat → Node} {f f' : Factory} {x y z : Bit}
    (hoperands : ∀ l m, (node l m).operands = [l, m])
    (hcell : ∀ {l m}, l < f.graph.length → m < f.graph.length → ∃ g,
      cell (.symbolic l) (.symbolic m) f = .ok (.symbolic (f.emit (node l m)).1, g) ∧
        g.graph = (f.emit (node l m)).2.graph)
    (hf : f.wellBuilt = true) (hr : f.realization = .circuit) (hx : f.ownsBit x = true) (hy : f.ownsBit y = true)
    (h : cell x y f = .ok (z, f')) :
    ∃ l m n, x = .symbolic l ∧ y = .symbolic m ∧ z = .symbolic n ∧ f'.graph[n]? = some (node l m) := by
  obtain ⟨l, rfl, hl⟩ := exists_node_of_ownsBit hr hx
  obtain ⟨m, rfl, hm⟩ := exists_node_of_ownsBit hr hy
  obtain ⟨g, hg, hgraph⟩ := hcell hl hm
  obtain ⟨rfl, rfl⟩ := Prod.mk.inj (Except.ok.inj (hg.symm.trans h))
  obtain ⟨-, -, -, -, hnode⟩ := emit_spec (n := node l m) hf hr (by simp [hoperands, hl, hm])
  exact ⟨l, m, _, rfl, rfl, rfl, hgraph ▸ hnode⟩

/-- Settles O39: each cell does what its law says, and its bit in the Circuit realization is the node `emit` answers. -/
theorem primitiveCells : Obligations.PrimitiveCells := by
  refine fun f hf => ⟨fun v => ?_, fun x y hx hy => ⟨?_, ?_⟩⟩
  · obtain ⟨z, f', he, hc, ⟨hz, hv⟩, hconst⟩ := (constCell_does f v).calls hf
    exact ⟨z, f', he, hc, hz, hv, fun hr => constNode_of_constValue (hc.growth.realization.trans hr) hz hconst⟩
  · obtain ⟨z, f', he, hc, hz, hv⟩ := (andCell_does (denotes_self hx) (denotes_self hy)).calls hf
    exact ⟨z, f', he, hc, hz, hv, fun hr =>
      gate_node (fun _ _ => rfl) (fun hl hm => ⟨_, andCell_circuit hr hl hm, rfl⟩) hf hr hx hy he⟩
  · obtain ⟨z, f', he, hc, hz, hv⟩ := (xorCell_does (denotes_self hx) (denotes_self hy)).calls hf
    exact ⟨z, f', he, hc, hz, hv, fun hr =>
      gate_node (fun _ _ => rfl) (fun hl hm => ⟨_, xorCell_circuit hr hl hm, rfl⟩) hf hr hx hy he⟩

theorem inputCell_circuit {f : Factory} (hr : f.realization = .circuit) (name : InputName) :
    inputCell name f = .ok (.symbolic f.graph.length, { f with graph := f.graph ++ [.input name] }) := by
  simp only [inputCell, hr]

/-- Settles O40: the law of the cell, at the node it appends. -/
theorem inputCell_spec : Obligations.InputCell := by
  refine fun f name hf => ⟨fun hr => by simp only [inputCell, hr], fun hr => ?_⟩
  obtain ⟨z, f', he, hc, -, hv⟩ := (inputCell_does f hr name).calls hf
  obtain ⟨rfl, rfl⟩ := Prod.mk.inj (Except.ok.inj ((inputCell_circuit hr name).symm.trans he))
  exact ⟨_, he, hc, rfl, hv⟩

/-- Settles O41: the laws of the cells at the values of `x`, `y` and `c`; the two bits of an adder are its sum. -/
theorem derivedCells : Obligations.DerivedCells := by
  intro f x y c hf hx hy hc
  have dx := denotes_self hx
  have dy := denotes_self hy
  have dc := denotes_self hc
  refine ⟨(notCell_does dx).calls hf, (muxCell_does dc dx dy).calls hf, (orCell_does dx dy).calls hf, ?_, ?_⟩
  · obtain ⟨⟨s, co⟩, f', he, hcalls, ⟨hs, hsv⟩, hco, hcv⟩ := (halfAdder_does dx dy).calls hf
    refine ⟨s, co, f', he, hcalls, hs, hco, fun ρ => ?_⟩
    rw [hsv, hcv]
    exact halfAdder_arith _ _
  · obtain ⟨⟨s, co⟩, f', he, hcalls, ⟨hs, hsv⟩, hco, hcv⟩ := (fullAdder_does dx dy dc).calls hf
    refine ⟨s, co, f', he, hcalls, hs, hco, fun ρ => ?_⟩
    rw [hsv, hcv]
    exact fullAdder_arith _ _ _

/-- Settles O42: the laws of the word cells at the words' own values. -/
theorem wordCells : Obligations.WordCells := by
  intro f x y c hf hx hy hc hlen
  have dx := denotesWord_self hx
  have dy := denotesWord_self hy
  constructor
  · obtain ⟨z, f', he, hcalls, hz⟩ := (notWord_does dx).calls hf
    refine ⟨z, f', he, by simpa using hcalls, denotesWord_owns hz, fun ρ => ?_⟩
    rw [wordBits_of_denotes hz, wordBits_of_denotes dx]
    simp [valuesAt]
  · obtain ⟨z, f', he, hcalls, hz⟩ := (muxWord_does (denotes_self hc) dx dy (by simpa using hlen)).calls hf
    refine ⟨z, f', he, by simpa using hcalls, denotesWord_owns hz, fun ρ => ?_⟩
    rw [wordBits_of_denotes hz, choice_valuesAt _ (by simpa using hlen), wordBits_of_denotes dx, wordBits_of_denotes dy]

end Sys2Proof.Machine
end

section
/-! PROOFS. The family of spec/41_add_sub.md: ADD and SUB complete with their rules (R100, R104), both readings of a word
(R107), and the constructions at every width (R101, R102, R105, R106). -/

namespace Sys2Proof.Machine

/-! ### Completion -/

/-- An instruction completes with what its arm of the output function (R67) drives, and so with every relation that the
output function meets. -/
theorem completes_of_instrOutputs {s : State} (hf : s.factory.wellBuilt = true) (hs : s.InputsOk) {i : Instr}
    {R : Functional.Ports s.width → Functional.Values s.width → Prop} (h : ∀ p, R p (Functional.instrOutputs i p)) :
    s.Completes i R := by
  obtain ⟨o, f, he, -, hext, -, -, ho, -⟩ := evaluate_next hf hs i
  refine ⟨o, f, (exec_eq i s).trans he, hext, ho.fits, fun ρ => ?_⟩
  have hv : o.values s.width f ρ = Functional.instrOutputs i (s.ports ρ) := ho.values ρ
  rw [hv]
  exact h _

/-! ### The rules on words -/

theorem sub_toNat_emod {W : Nat} (a b : BitVec W) :
    ((Functional.sub a b).1.toNat : Int) = ((a.toNat : Int) - b.toNat) % 2 ^ W := by
  rw [sub_eq_difference, Functional.difference, Functional.word, BitVec.toNat_ofInt, Nat.cast_pow, Nat.cast_ofNat]
  exact Int.toNat_of_nonneg (Int.emod_nonneg _ (by positivity))

/-- The carry out of SUB is 1 exactly for no borrow: the sum with the complement is `2^W` above the difference (R104). -/
theorem sub_cout {W : Nat} (a b : BitVec W) : (Functional.sub a b).2 = decide (b.toNat ≤ a.toNat) := by
  have hb := b.isLt
  rw [Functional.sub, BitVec.toNat_not, decide_eq_decide]
  omega

/-- Settles O5: the adder's arm of the output function is R100. -/
theorem addCompletes : Obligations.AddCompletes := by
  refine ⟨rfl, fun s hf hs => completes_of_instrOutputs hf hs fun p => ⟨?_, rfl, rfl⟩⟩
  calc (Functional.add p.a p.b).1.toNat = (BitVec.ofNat s.width (p.a.toNat + p.b.toNat)).toNat :=
        congrArg BitVec.toNat (word_nat _ _)
    _ = (p.a.toNat + p.b.toNat) % 2 ^ s.width := BitVec.toNat_ofNat _ _

/-- Settles O6: the subtractor's arm of the output function is the sum with the complement, whose value is R104's `t`. -/
theorem subCompletes : Obligations.SubCompletes := by
  refine ⟨rfl, fun s hf hs => completes_of_instrOutputs hf hs fun p => ?_⟩
  obtain ⟨hr, hcout⟩ : (Functional.sub p.a p.b).1.toNat = (p.a.toNat + (2 ^ s.width - 1 - p.b.toNat) + 1) % 2 ^ s.width ∧
      (Functional.sub p.a p.b).2 = decide (2 ^ s.width ≤ p.a.toNat + (2 ^ s.width - 1 - p.b.toNat) + 1) := by
    simp only [Functional.sub, word_nat, BitVec.toNat_not, BitVec.toNat_ofNat, and_self]
  exact ⟨hr, sub_toNat_emod _ _, hcout, sub_cout _ _, rfl⟩

/-! ### Both readings of a word -/

/-- Settles O20: `r` is the sum or difference of bit vectors, and in range neither reading overflows. -/
theorem addSubBothReadings : Obligations.AddSubBothReadings := by
  refine fun s hf hs => ⟨completes_of_instrOutputs hf hs fun p => ?_, completes_of_instrOutputs hf hs fun p => ?_⟩
  · have hr : (Functional.instrOutputs .add p).r = p.a + p.b := add_eq _ _
    rw [hr]
    refine ⟨fun hlo hhi => BitVec.toInt_add_of_not_saddOverflow ?_, BitVec.toNat_add_of_lt, rfl⟩
    simp [BitVec.saddOverflow, hlo, hhi]
  · have hr : (Functional.instrOutputs .sub p).r = p.a - p.b := sub_eq _ _
    rw [hr]
    refine ⟨fun hlo hhi => BitVec.toInt_sub_of_not_ssubOverflow ?_, BitVec.toNat_sub_of_le, sub_cout _ _⟩
    simp [BitVec.ssubOverflow, hlo, hhi]

/-! ### The constructions -/

theorem wordValue_of_denotes {f : Factory} {w : Word} {vs : List Den} (h : f.DenotesWord w vs) (ρ : Assignment) :
    f.wordValue ρ w = uval (valuesAt vs ρ) := by
  rw [Factory.wordValue, wordBits_of_denotes h]

/-- What an adder leaves, read off its bits. -/
theorem IsSum.values {f : Factory} {r : Word × Bit} {n : Nat} {total : Assignment → Nat} (h : IsSum f r n total) :
    r.1.length = n ∧ r.1.all f.ownsBit = true ∧ f.ownsBit r.2 = true ∧
      ∀ ρ, f.wordValue ρ r.1 + 2 ^ n * (f.bitValue ρ r.2).toNat = total ρ := by
  obtain ⟨ss, co, hs, ⟨hown, hco⟩, hlen, hsum⟩ := h
  refine ⟨hs.length_eq.trans hlen, denotesWord_owns hs, hown, fun ρ => ?_⟩
  rw [wordValue_of_denotes hs, hco, hsum]

/-- Settles O43: the laws of the two constructions at the operands' own values; the complement of `b` makes up `2^W` with
`b` (R106). -/
theorem addSubConstructions : Obligations.AddSubConstructions := by
  intro f a b hf ha hb hlen hpos
  have da := denotesWord_self ha
  have db := denotesWord_self hb
  simp only [wordValue_of_denotes da, wordValue_of_denotes db]
  constructor
  · obtain ⟨⟨r, co⟩, f', he, hcalls, hsum⟩ := (addNet_does da db (by simpa using hlen) (by simpa using hpos)).calls hf
    rw [List.length_map] at hcalls hsum
    exact ⟨r, co, f', he, hcalls, hsum.values⟩
  · obtain ⟨⟨r, co⟩, f', he, hcalls, hsum⟩ := (subNet_does da db (by simpa using hlen)).calls hf
    rw [List.length_map] at hcalls hsum
    obtain ⟨hr, hrs, hco, hv⟩ := hsum.values
    refine ⟨r, co, f', he, hcalls, hr, hrs, hco, fun ρ => ?_⟩
    have hlt := uval_lt (valuesAt (b.map fun x ρ => f.bitValue ρ x) ρ)
    rw [hv, uval_not]
    rw [valuesAt_length, List.length_map, ← hlen] at hlt ⊢
    omega

end Sys2Proof.Machine
end

section
/-! PROOFS. The family of spec/42_compare.md: CMP completes (R124), the signed and the unsigned comparisons (R122, R123,
R127), exactly one flag (R128), the block of width 1 (R129, R152), and the comparator at every width (R125, R126). -/

namespace Sys2Proof.Machine

/-! ### The flags on words -/

/-- The zero-detector says that the difference is the zero word (R121). -/
theorem functional_eq_difference {W : Nat} (a b : BitVec W) :
    Functional.eq a b = decide (Functional.difference a b = 0) := by
  rw [Functional.eq, decide_eq_decide]
  exact BitVec.toNat_inj (y := 0)

/-- The sign bit of the difference is the signed less-than but for signed overflow: without overflow the difference has the
exact value, and overflow needs operands of different signs and gives the difference the sign of `b` (R122). -/
theorem functional_lt_eq_slt_xor_overflow {W : Nat} (a b : BitVec W) :
    Functional.lt a b = (a.slt b ^^ a.ssubOverflow b) := by
  rw [Functional.lt, difference_eq_sub, ← BitVec.msb_eq_getLsbD_last]
  cases hover : a.ssubOverflow b with
  | false =>
    rw [Bool.xor_false, BitVec.msb_eq_toInt, BitVec.toInt_sub_of_not_ssubOverflow (by simp [hover]),
      BitVec.slt_eq_decide, decide_eq_decide]
    exact sub_neg
  | true =>
    rw [BitVec.ssubOverflow_eq] at hover
    obtain ⟨hdiff, hsigns⟩ : (a - b).msb = b.msb ∧ a.msb = !b.msb := by
      revert hover
      cases a.msb <;> cases b.msb <;> simp
    have hslt : a.slt b = a.msb := by
      rw [BitVec.msb_eq_toInt, BitVec.msb_eq_toInt, ← decide_not, decide_eq_decide] at hsigns
      rw [BitVec.slt_eq_decide, BitVec.msb_eq_toInt, decide_eq_decide]
      omega
    rw [hslt, hdiff, hsigns, Bool.xor_true, Bool.not_not]

/-- The exact signed difference is out of range exactly at signed overflow. -/
theorem not_mem_signedRange {W : Nat} (a b : BitVec W) :
    (!decide (-(2 : Int) ^ (W - 1) ≤ a.toInt - b.toInt ∧ a.toInt - b.toInt < (2 : Int) ^ (W - 1))) =
      a.ssubOverflow b := by
  rw [BitVec.ssubOverflow, ← decide_not, ← Bool.decide_or, decide_eq_decide]
  omega

/-- Without signed overflow `gt` is the signed greater-than (R123). -/
theorem functional_gt_of_lt {W : Nat} {a b : BitVec W} (h : Functional.lt a b = a.slt b) :
    Functional.gt a b = b.slt a := by
  rw [Functional.gt, h, functional_eq_decide, BitVec.slt_eq_decide, BitVec.slt_eq_decide, ← decide_not, ← decide_not,
    ← Bool.decide_and, decide_eq_decide, ← BitVec.toInt_inj]
  omega

/-- The flags exclude each other: a difference of zero has sign bit 0 (R128). -/
theorem functional_flags_exactly_one {W : Nat} (a b : BitVec W) :
    (Functional.lt a b).toNat + (Functional.eq a b).toNat + (Functional.gt a b).toNat = 1 := by
  have hexcl : Functional.eq a b = true → Functional.lt a b = false := fun h => by
    rw [functional_eq_difference, decide_eq_true_iff] at h
    simp [Functional.lt, h]
  rw [Functional.gt]
  cases heq : Functional.eq a b with
  | true => simp [hexcl heq]
  | false => cases Functional.lt a b <;> rfl

/-- Settles O7: the flags of an evaluation are those of the difference, and CMP's arm passes `a` and SUB's carry out. -/
theorem cmpCompletes : Obligations.CmpCompletes :=
  ⟨rfl, fun _ hf hs => completes_of_instrOutputs hf hs fun _ =>
    ⟨rfl, functional_eq_difference _ _, rfl, rfl, sub_cout _ _, rfl⟩⟩

/-- Settles O16: every step drives the flags of `compare(a, b)`, whose `lt` is the signed less-than but for overflow. -/
theorem signedComparison : Obligations.SignedComparison := by
  intro s hf hs hi
  obtain ⟨o, f, _, _, _, hstep, -, -, ho, -⟩ := step_next hf hs hi
  refine ⟨_, o, hstep, rfl, fun ρ => ?_⟩
  obtain ⟨hlt, heq, hgt⟩ := outputs_flags (s.ports ρ)
  simp only [are_outputs ho ρ, hlt, heq, hgt, not_mem_signedRange, ← BitVec.slt_eq_decide]
  have hsigned := functional_lt_eq_slt_xor_overflow (s.ports ρ).a (s.ports ρ).b
  refine ⟨?_, hsigned, rfl, fun hno => ?_⟩
  · rw [Functional.lt, difference_eq_sub]
  · rw [hno, Bool.xor_false] at hsigned
    exact ⟨hsigned, functional_gt_of_lt hsigned⟩

/-- Settles O17: CMP and SUB drive the same `cout`, and `eq` says that the operands are equal. -/
theorem unsignedComparison : Obligations.UnsignedComparison := by
  intro s i hi hf hs
  refine completes_of_instrOutputs hf hs fun p => ?_
  have hcout : (Functional.instrOutputs i p).cout = decide (p.b.toNat ≤ p.a.toNat) := by
    rcases hi with rfl | rfl <;> exact sub_cout _ _
  have heq : (Functional.instrOutputs i p).eq = decide (p.a.toNat = p.b.toNat) :=
    (functional_eq_decide p.a p.b).trans (decide_eq_decide.mpr BitVec.toNat_inj.symm)
  rw [hcout, heq]
  refine ⟨rfl, ?_, ?_⟩
  · rw [← decide_not, decide_eq_decide]
    omega
  · rw [← decide_not, ← Bool.decide_and, decide_eq_decide]
    omega

/-- Settles O18: a step drives the output function, whose flags are those of `compare(a, b)`. -/
theorem exactlyOneFlag : Obligations.ExactlyOneFlag := by
  intro s t hinv h
  obtain ⟨hf, -⟩ := (inv_iff s).mp hinv
  obtain ⟨hi, hs⟩ := ready_of_step_next h
  obtain ⟨o, f, _, _, _, hstep, -, -, ho, -⟩ := step_next hf hs hi
  obtain rfl := Host.Outcome.next.inj (h.symm.trans hstep)
  refine ⟨o, rfl, fun ρ => ?_⟩
  obtain ⟨hlt, heq, hgt⟩ := outputs_flags (s.ports ρ)
  simp only [are_outputs ho ρ, hlt, heq, hgt]
  exact functional_flags_exactly_one _ _

/-! ### Width 1 -/

section
variable {W : Nat} (hW : W = 1)
include hW

/-- The one bit of the difference is the exclusive-or of the operands' bits, and the sign bit too (R129). -/
theorem flags_width_one (a b : BitVec W) :
    Functional.lt a b = (a.getLsbD 0 ^^ b.getLsbD 0) ∧ Functional.eq a b = !(a.getLsbD 0 ^^ b.getLsbD 0) ∧
      Functional.gt a b = false := by
  have hlt : Functional.lt a b = (a.getLsbD 0 ^^ b.getLsbD 0) := by
    subst hW
    rw [Functional.lt, difference_eq_sub]
    revert a b
    decide
  have heq : Functional.eq a b = !(a.getLsbD 0 ^^ b.getLsbD 0) := by
    subst hW
    rw [functional_eq_decide]
    revert a b
    decide
  refine ⟨hlt, heq, ?_⟩
  rw [Functional.gt, hlt, heq, Bool.not_not, Bool.not_and_self]

/-- A word of one bit moved to the left keeps the entering bit only (R152). -/
theorem left_width_one (x : BitVec W) (e : Bool) :
    (Functional.left x e).1.getLsbD 0 = e ∧ (Functional.left x e).2 = x.getLsbD 0 := by
  subst hW
  exact ⟨by rw [Functional.left, bitsOf_getLsbD]; simp, rfl⟩

/-- A word of one bit moved to the right keeps the entering bit only (R152). -/
theorem right_width_one (x : BitVec W) (e : Bool) :
    (Functional.right x e).1.getLsbD 0 = e ∧ (Functional.right x e).2 = x.getLsbD 0 := by
  subst hW
  exact ⟨by rw [Functional.right, bitsOf_getLsbD]; simp, rfl⟩

/-- The result of such a move is any word whose one bit is the bit that entered. -/
theorem moved_eq_of_bit_zero {m : BitVec W × Bool} {x r : BitVec W} {e : Bool}
    (hm : m.1.getLsbD 0 = e ∧ m.2 = x.getLsbD 0) (hr : r.getLsbD 0 = e) : m.1 = r ∧ m.2 = x.getLsbD 0 :=
  ⟨BitVec.eq_of_getLsbD_eq fun i hi => by rw [show i = 0 by omega, hm.1, hr], hm.2⟩

end

/-- Settles O19: at width 1 each one-position form keeps only the bit that enters, and CMP costs `evaluationAnd` and
`evaluationXor` of its evaluation (log entry 9). -/
theorem widthOne : Obligations.WidthOne := by
  intro s hW hf hs
  have completes {i : Instr} {R} (h : ∀ p, R p (Functional.instrOutputs i p)) : s.Completes i R :=
    completes_of_instrOutputs hf hs h
  have htop (x : BitVec s.width) : x.getLsbD 0 = x.getLsbD (s.width - 1) := congrArg x.getLsbD (by omega)
  simp only [List.forall_mem_cons, List.not_mem_nil, false_implies, implies_true, and_true]
  refine ⟨fun i => completes fun p => flags_width_one hW p.a p.b, ⟨?_, ?_⟩, ⟨?_, ?_, ?_⟩, ⟨?_, ?_⟩, ?_⟩
  · exact completes fun p => moved_eq_of_bit_zero hW (left_width_one hW p.a _) (by simp)
  · exact completes fun p => moved_eq_of_bit_zero hW (right_width_one hW p.a _) (by simp)
  · exact completes fun p => moved_eq_of_bit_zero hW (right_width_one hW p.a _) (htop p.a)
  · exact completes fun p => moved_eq_of_bit_zero hW (left_width_one hW p.a _) (htop p.a)
  · exact completes fun p => moved_eq_of_bit_zero hW (right_width_one hW p.a _) rfl
  · exact completes fun p => left_width_one hW p.a p.cin
  · exact completes fun p => right_width_one hW p.a p.cin
  · obtain ⟨o, f, he, -, -, hand, hxor, -⟩ := evaluate_next hf hs .cmp
    refine ⟨_, (exec_eq .cmp s).trans he, ?_⟩
    rw [hW] at hand hxor
    exact Prod.ext hand hxor

/-! ### The comparator -/

/-- SUB's `r` is the difference that the comparator reads (R106, R120). -/
theorem subNet_difference {f : Factory} {x y : Word} {us vs : List Den} {W : Nat} (hx : f.DenotesWord x us)
    (hy : f.DenotesWord y vs) (hu : us.length = W) (hv : vs.length = W) :
    Build.Does (subNet x y) f (2 * W) (4 * W) fun r f' => ∃ ds, f'.DenotesWord r.1 ds ∧ ds.length = W ∧ ∀ ρ,
      wordOf W (valuesAt ds ρ) = Functional.difference (wordOf W (valuesAt us ρ)) (wordOf W (valuesAt vs ρ)) := by
  refine (subNet_does hx hy (hu.trans hv.symm)).weaken (by rw [hu]) (by rw [hu]) fun r f' _ hsum => ?_
  rw [hu] at hsum
  obtain ⟨ds, co, hds, -, hlen, hval⟩ := isResult_of_isSum hsum
  refine ⟨ds, hds, hlen, fun ρ => ?_⟩
  rw [← sub_eq_difference, Functional.sub, not_toNat (by simp [hv]), wordOf_toNat (by simp [hu])]
  exact congrArg Prod.fst (hval ρ)

/-- The comparator's flags, as R121 to R123 read them off the word of the difference. -/
theorem compareFlags_word {f : Factory} {d : Word} {ds : List Den} {W : Nat} (hd : f.DenotesWord d ds)
    (hlen : ds.length = W) (hpos : 1 ≤ W) :
    Build.Does (compareFlags d) f W (W + 2) fun g f' => ∀ ρ,
      f'.bitValue ρ g.lt = (wordOf W (valuesAt ds ρ)).getLsbD (W - 1) ∧
      f'.bitValue ρ g.eq = decide (wordOf W (valuesAt ds ρ) = 0) ∧
      f'.bitValue ρ g.gt = (!f'.bitValue ρ g.lt && !f'.bitValue ρ g.eq) := by
  refine (compareFlags_does hd (hlen ▸ hpos)).weaken hlen (by rw [hlen]) ?_
  rintro g f' - ⟨⟨-, hlt⟩, ⟨-, heq⟩, -, hgt⟩ ρ
  have hl : (valuesAt ds ρ).length = W := by simp [hlen]
  refine ⟨?_, ?_, ?_⟩
  · rw [hlt ρ, wordOf_getLsbD hl, ← hl]
    exact getLastD_eq _
  · rw [heq ρ, Bool.eq_iff_iff, ← uval_eq_zero, ← wordOf_toNat hl, decide_eq_true_iff]
    exact BitVec.toNat_inj (y := 0)
  · rw [hgt, hlt, heq]

theorem Factory.Calls.trans {f g h : Factory} {na nx na' nx' : Nat} (a : f.Calls g na nx) (b : g.Calls h na' nx') :
    f.Calls h (na + na') (nx + nx') :=
  ⟨b.wellBuilt, a.growth.trans b.growth, by rw [b.andCount, a.andCount, Nat.add_assoc],
    by rw [b.xorCount, a.xorCount, Nat.add_assoc]⟩

/-- Settles O44: the flags read the word that the subtractor makes, which is the difference; the costs of the two add up. -/
theorem compareConstruction : Obligations.CompareConstruction := by
  intro f a b hf ha hb hlen hpos
  have da := denotesWord_self ha
  have db := denotesWord_self hb
  obtain ⟨⟨d, nb⟩, f', hsub, hcalls, ds, hds, hdlen, hdiff⟩ :=
    (subNet_difference da db (W := a.length) (by simp) (by simp [hlen])).calls hf
  obtain ⟨g, f'', hflags, hcalls', hval⟩ := (compareFlags_word hds hdlen hpos).calls hcalls.wellBuilt
  refine ⟨d, nb, f', g, f'', hsub, hflags, hcalls', ?_, fun ρ => ?_⟩
  · have h := hcalls.trans hcalls'
    rwa [show 2 * a.length + a.length = 3 * a.length by omega,
      show 4 * a.length + (a.length + 2) = 5 * a.length + 2 by omega] at h
  · intro dv
    have hdv : wordOf a.length (valuesAt ds ρ) = dv := by
      rw [hdiff, Functional.difference, wordOf_toNat (by simp), wordOf_toNat (by simp [hlen]),
        ← wordValue_of_denotes da, ← wordValue_of_denotes db]
      rfl
    rw [wordValue_of_denotes (denotesWord_extends hds hcalls'.growth), ← hdv, wordOf_toNat (by simp [hdlen])]
    exact ⟨rfl, hval ρ⟩

end Sys2Proof.Machine
end

section
/-! PROOFS. The family of spec/43_select.md: SEL completes with the operand that `ctrl` selects (R140), and the counters after
one evaluation of each operation (R142, R178, R212). -/

namespace Sys2Proof.Machine

/-! ### The selection -/

/-- Settles O8: the selector's arm of the output function is the operand that `ctrl` selects, and its bits are that
operand's (R140). -/
theorem selCompletes : Obligations.SelCompletes := by
  refine ⟨rfl, fun s hf hs => completes_of_instrOutputs hf hs fun p => ?_⟩
  have hr : (Functional.instrOutputs .sel p).r = if p.ctrl then p.a else p.b := sel_eq p.ctrl p.a p.b
  refine ⟨fun i _ => ?_, hr, rfl, rfl⟩
  rw [hr]
  exact apply_ite (BitVec.getLsbD · i) _ _ _

/-! ### The counters -/

/-- An instruction's evaluation completes and raises the counters by its cost, the comparator's with it (R212). -/
theorem exec_counters {s : State} (hf : s.factory.wellBuilt = true) (hs : s.InputsOk) (i : Instr) :
    ∃ t, exec i s = .next t ∧ t.counters =
      (s.factory.andCount + evaluationAnd i s.width, s.factory.xorCount + evaluationXor i s.width) := by
  obtain ⟨o, f, he, -, -, hand, hxor, -⟩ := evaluate_next hf hs i
  exact ⟨_, (exec_eq i s).trans he, Prod.ext hand hxor⟩

/-- Settles O37: the costs of the evaluation read off R212's table row by row. -/
theorem evaluationCost : Obligations.EvaluationCost := by
  intro s i hf hs
  obtain ⟨t, he, hcounters⟩ := exec_counters hf hs i
  refine ⟨t, he, hcounters.trans ?_⟩
  cases i with
  | add | sub | cmp | sel | shl | shr | sar | rol | ror | rcl | rcr => rfl
  | bshl | bshr | bsar | brol | bror => rw [Nat.mul_assoc]; rfl

end Sys2Proof.Machine
end

section
/-! PROOFS. The family of spec/44_shift_rotate.md: the one-position forms complete (R153 to R159), the barrel forms complete
for every amount (R170 to R174), the laws between them (R157, R174, R177), and the cascade at every width (R175, R176). -/

namespace Sys2Proof.Machine

/-! ### The one-position forms on words -/

/-- `LEFT` is the library's shift to the left with a bit entering (R150). -/
theorem left_eq_shiftConcat {W : Nat} (x : BitVec W) (e : Bool) : (Functional.left x e).1 = x.shiftConcat e :=
  BitVec.eq_of_getLsbD_eq fun i hi => by rw [Functional.left, bitsOf_getLsbD, BitVec.getLsbD_shiftConcat]

theorem left_getLsbD {W : Nat} (x : BitVec W) (e : Bool) {i : Nat} (hi : i < W) :
    (Functional.left x e).1.getLsbD i = if i = 0 then e else x.getLsbD (i - 1) := by
  rw [Functional.left, bitsOf_getLsbD, decide_eq_true hi, Bool.true_and]

theorem right_getLsbD {W : Nat} (x : BitVec W) (e : Bool) {i : Nat} (hi : i < W) :
    (Functional.right x e).1.getLsbD i = if i = W - 1 then e else x.getLsbD (i + 1) := by
  rw [Functional.right, bitsOf_getLsbD, decide_eq_true hi, Bool.true_and]

theorem left_toNat {W : Nat} (x : BitVec W) (e : Bool) :
    (Functional.left x e).1.toNat = (2 * x.toNat + e.toNat) % 2 ^ W := by
  rw [left_eq_shiftConcat, BitVec.toNat_shiftConcat, Nat.shiftLeft_eq, Nat.pow_one, Nat.mul_comm]

/-- `RIGHT` puts the entering bit on top of the upper bits of the word (R150). -/
theorem right_eq_cons {n : Nat} (x : BitVec (n + 1)) (e : Bool) :
    (Functional.right x e).1 = BitVec.cons e (x.extractLsb' 1 n) := by
  refine BitVec.eq_of_getLsbD_eq fun i hi => ?_
  rw [right_getLsbD x e hi, BitVec.getLsbD_cons, BitVec.getLsbD_extractLsb', Nat.add_sub_cancel, Nat.add_comm 1 i]
  split
  · rfl
  · rw [decide_eq_true (by omega), Bool.true_and]

theorem right_toNat {W : Nat} (hW : 1 ≤ W) (x : BitVec W) (e : Bool) :
    (Functional.right x e).1.toNat = x.toNat / 2 + e.toNat * 2 ^ (W - 1) := by
  obtain ⟨n, rfl⟩ : ∃ n, W = n + 1 := ⟨W - 1, by omega⟩
  have hx : x.toNat / 2 < 2 ^ n := by have := x.isLt; omega
  rw [right_eq_cons, BitVec.toNat_cons', BitVec.extractLsb'_toNat, Nat.shiftLeft_eq, Nat.shiftRight_eq_div_pow,
    Nat.pow_one, Nat.mod_eq_of_lt hx, Nat.add_comm, Nat.add_sub_cancel]

theorem shl_eq_shiftLeft {W : Nat} (a : BitVec W) : (Functional.shl a).1 = a <<< 1 := by
  refine BitVec.eq_of_toNat_eq ?_
  rw [Functional.shl, left_toNat, BitVec.toNat_shiftLeft, Nat.shiftLeft_eq, Nat.pow_one, Nat.mul_comm 2]
  rfl

theorem shr_eq_ushiftRight {W : Nat} (a : BitVec W) : (Functional.shr a).1 = a >>> 1 := by
  refine BitVec.eq_of_getLsbD_eq fun i hi => ?_
  rw [Functional.shr, right_getLsbD a _ hi, BitVec.getLsbD_ushiftRight, Nat.add_comm 1 i]
  split
  · exact (BitVec.getLsbD_of_ge a _ (by omega)).symm
  · rfl

theorem sar_eq_sshiftRight {W : Nat} (a : BitVec W) : (Functional.sar a).1 = a.sshiftRight 1 := by
  refine BitVec.eq_of_getLsbD_eq fun i hi => ?_
  rw [Functional.sar, right_getLsbD a _ hi, BitVec.getLsbD_sshiftRight, BitVec.msb_eq_getLsbD_last,
    decide_eq_false (Nat.not_le.mpr hi), Bool.not_false, Bool.true_and, Nat.add_comm 1 i]
  by_cases htop : i = W - 1
  · rw [if_pos htop, if_neg (by omega)]
  · rw [if_neg htop, if_pos (by omega)]

/-- The arithmetic shift by one place halves the signed value, rounding towards minus infinity (R155). -/
theorem sar_eq_ofInt {W : Nat} (a : BitVec W) : (Functional.sar a).1 = BitVec.ofInt W (a.toInt / 2) := by
  rw [sar_eq_sshiftRight, BitVec.sshiftRight_eq, Int.shiftRight_eq_div_pow]
  rfl

theorem rol_getLsbD {W : Nat} (a : BitVec W) {i : Nat} (hi : i < W) :
    (Functional.rol a).1.getLsbD i = a.getLsbD ((i + W - 1) % W) := by
  rw [Functional.rol, left_getLsbD a _ hi]
  split
  · next h => rw [h, Nat.zero_add, Nat.mod_eq_of_lt (by omega)]
  · rw [show i + W - 1 = i - 1 + W by omega, Nat.add_mod_right, Nat.mod_eq_of_lt (by omega)]

theorem ror_getLsbD {W : Nat} (a : BitVec W) {i : Nat} (hi : i < W) :
    (Functional.ror a).1.getLsbD i = a.getLsbD ((i + 1) % W) := by
  rw [Functional.ror, right_getLsbD a _ hi]
  split
  · next h => rw [h, Nat.sub_add_cancel (by omega), Nat.mod_self]
  · rw [Nat.mod_eq_of_lt (by omega)]

/-- Settles O9: `LEFT` and `RIGHT` by their bits, and the library's shifts by one place by their values. -/
theorem shiftsComplete : Obligations.ShiftsComplete := by
  refine ⟨rfl, rfl, rfl, fun s hf hs => ⟨?_, ?_, ?_⟩⟩
  · exact completes_of_instrOutputs hf hs fun p => ⟨fun i hi => left_getLsbD p.a _ hi, left_toNat p.a _, rfl, rfl⟩
  · refine completes_of_instrOutputs hf hs fun p => ⟨fun i hi => right_getLsbD p.a _ hi, ?_, rfl, rfl⟩
    exact (right_toNat s.width_pos p.a false).trans (by simp)
  · exact completes_of_instrOutputs hf hs fun p => ⟨fun i hi => right_getLsbD p.a _ hi, sar_eq_ofInt p.a, rfl, rfl⟩

/-- Settles O10: the bit that enters is the bit that leaves, so the index wraps round. -/
theorem rotatesComplete : Obligations.RotatesComplete :=
  ⟨rfl, rfl, fun _ hf hs =>
    ⟨completes_of_instrOutputs hf hs fun p => ⟨fun _ hi => rol_getLsbD p.a hi, rfl, rfl⟩,
      completes_of_instrOutputs hf hs fun p => ⟨fun _ hi => ror_getLsbD p.a hi, rfl, rfl⟩⟩⟩

/-- Settles O11: the values of `LEFT` and `RIGHT` with `cin` entering. -/
theorem carryRotatesComplete : Obligations.CarryRotatesComplete :=
  ⟨rfl, rfl, fun s hf hs =>
    ⟨completes_of_instrOutputs hf hs fun p => ⟨left_toNat p.a p.cin, rfl, rfl⟩,
      completes_of_instrOutputs hf hs fun p => ⟨right_toNat s.width_pos p.a p.cin, rfl, rfl⟩⟩⟩

/-! ### The barrel forms on words -/

theorem bshl_eq_shiftLeft {W : Nat} (a b : BitVec W) : Functional.bshl a b = a <<< b.toNat := by
  refine BitVec.eq_of_toNat_eq ?_
  rw [Functional.bshl, word_nat, BitVec.toNat_ofNat, BitVec.toNat_shiftLeft, Nat.shiftLeft_eq]

theorem bshr_eq_ushiftRight {W : Nat} (a b : BitVec W) : Functional.bshr a b = a >>> b.toNat := by
  refine BitVec.eq_of_toNat_eq ?_
  rw [Functional.bshr, word_nat, BitVec.toNat_ofNat, BitVec.toNat_ushiftRight, Nat.shiftRight_eq_div_pow]
  exact Nat.mod_eq_of_lt ((Nat.div_le_self _ _).trans_lt a.isLt)

theorem bsar_getLsbD {W : Nat} (a b : BitVec W) {i : Nat} (hi : i < W) :
    (Functional.bsar a b).getLsbD i =
      if i + b.toNat < W then a.getLsbD (i + b.toNat) else a.getLsbD (W - 1) := by
  rw [bsar_eq, BitVec.getLsbD_sshiftRight, BitVec.msb_eq_getLsbD_last, decide_eq_false (Nat.not_le.mpr hi),
    Bool.not_false, Bool.true_and, Nat.add_comm i]

theorem brol_getLsbD {W : Nat} (a b : BitVec W) {i : Nat} (hi : i < W) :
    (Functional.brol a b).getLsbD i = a.getLsbD ((i + (W - b.toNat % W)) % W) := by
  rw [Functional.brol, bitsOf_getLsbD, decide_eq_true hi, Bool.true_and]

theorem bror_getLsbD {W : Nat} (a b : BitVec W) {i : Nat} (hi : i < W) :
    (Functional.bror a b).getLsbD i = a.getLsbD ((i + b.toNat % W) % W) := by
  rw [Functional.bror, bitsOf_getLsbD, decide_eq_true hi, Bool.true_and]

/-- Going back `k` places modulo `W`, as R173 writes it, is going on `W - k` places. -/
theorem toNat_sub_emod (i : Nat) {k W : Nat} (hk : k ≤ W) :
    (((i : Int) - (k : Nat)) % (W : Int)).toNat = (i + (W - k)) % W := by
  have h : ((i : Int) - (k : Nat)) % (W : Int) = ((i + (W - k) : Nat) : Int) % (W : Int) := by
    rw [← Int.add_emod_right]
    congr 1
    omega
  rw [h, ← Int.natCast_emod, Int.toNat_natCast]

/-- Settles O12: BSHL and BSHR are the library's logical shifts by `uval(b)`. -/
theorem barrelLogicalComplete : Obligations.BarrelLogicalComplete := by
  refine ⟨rfl, rfl, fun s hf hs => ⟨?_, ?_⟩⟩
  · refine completes_of_instrOutputs hf hs fun p => ?_
    have hr : (Functional.instrOutputs .bshl p).r = p.a <<< p.b.toNat := bshl_eq_shiftLeft p.a p.b
    rw [hr]
    refine ⟨?_, fun i hi => ?_, fun h => BitVec.shiftLeft_eq_zero h, rfl, rfl⟩
    · rw [BitVec.toNat_shiftLeft, Nat.shiftLeft_eq]
    · rw [BitVec.getLsbD_shiftLeft, decide_eq_true hi, Bool.true_and, ← decide_not, decide_eq_decide.mpr Nat.not_lt]
  · refine completes_of_instrOutputs hf hs fun p => ?_
    have hr : (Functional.instrOutputs .bshr p).r = p.a >>> p.b.toNat := bshr_eq_ushiftRight p.a p.b
    rw [hr]
    refine ⟨?_, fun i hi => ?_, fun h => BitVec.ushiftRight_eq_zero h, rfl, rfl⟩
    · rw [BitVec.toNat_ushiftRight, Nat.shiftRight_eq_div_pow]
    · rw [BitVec.getLsbD_ushiftRight, Nat.add_comm]
      by_cases h : i + p.b.toNat < s.width
      · rw [decide_eq_true h, Bool.true_and]
      · rw [decide_eq_false h, Bool.false_and, BitVec.getLsbD_of_ge _ _ (Nat.le_of_not_lt h)]

/-- Settles O13: the rule's value is the definition of BSAR's arm, and `bsar_getLsbD` its bits. -/
theorem barrelArithmeticCompletes : Obligations.BarrelArithmeticCompletes :=
  ⟨rfl, fun _ hf hs => completes_of_instrOutputs hf hs fun p =>
    ⟨rfl, fun _ hi => bsar_getLsbD p.a p.b hi, rfl, rfl⟩⟩

/-- Settles O14: the bits of the rotations; the index of R173 is an integer reduced modulo the width. -/
theorem barrelRotatesComplete : Obligations.BarrelRotatesComplete := by
  refine ⟨rfl, rfl, fun s hf hs => ⟨?_, ?_⟩⟩
  · refine completes_of_instrOutputs hf hs fun p => ⟨fun i hi => ?_, rfl, rfl⟩
    have hk : p.b.toNat % s.width ≤ s.width := (Nat.mod_lt _ s.width_pos).le
    rw [toNat_sub_emod i hk]
    exact brol_getLsbD p.a p.b hi
  · exact completes_of_instrOutputs hf hs fun p => ⟨fun _ hi => bror_getLsbD p.a p.b hi, rfl, rfl⟩

/-! ### The laws between the forms -/

section
variable {W : Nat} {b : BitVec W} (hb : b.toNat = 1)
include hb

theorem bshl_eq_shl_of_one (a : BitVec W) : Functional.bshl a b = (Functional.shl a).1 := by
  rw [bshl_eq_shiftLeft, hb, shl_eq_shiftLeft]

theorem bshr_eq_shr_of_one (a : BitVec W) : Functional.bshr a b = (Functional.shr a).1 := by
  rw [bshr_eq_ushiftRight, hb, shr_eq_ushiftRight]

theorem bsar_eq_sar_of_one (a : BitVec W) : Functional.bsar a b = (Functional.sar a).1 := by
  rw [bsar_eq, hb, sar_eq_sshiftRight]

theorem brol_eq_rol_of_one (a : BitVec W) : Functional.brol a b = (Functional.rol a).1 := by
  refine BitVec.eq_of_getLsbD_eq fun i hi => ?_
  rw [brol_getLsbD a b hi, rol_getLsbD a hi, hb]
  congr 1
  obtain rfl | hW : W = 1 ∨ 1 < W := by omega
  · rw [Nat.mod_one, Nat.mod_one]
  · rw [Nat.mod_eq_of_lt hW, Nat.add_sub_assoc hW.le]

theorem bror_eq_ror_of_one (a : BitVec W) : Functional.bror a b = (Functional.ror a).1 := by
  refine BitVec.eq_of_getLsbD_eq fun i hi => ?_
  rw [bror_getLsbD a b hi, ror_getLsbD a hi, hb, Nat.add_mod_mod]

end

/-- A rotation to the right by an amount undoes the one to the left by it (R174). -/
theorem bror_brol {W : Nat} (a b : BitVec W) : Functional.bror (Functional.brol a b) b = a := by
  refine BitVec.eq_of_getLsbD_eq fun i hi => ?_
  have hW : 0 < W := by omega
  have hk : b.toNat % W < W := Nat.mod_lt _ hW
  rw [bror_getLsbD _ b hi, brol_getLsbD a b (Nat.mod_lt _ hW), Nat.mod_add_mod,
    show i + b.toNat % W + (W - b.toNat % W) = i + W by omega, Nat.add_mod_right, Nat.mod_eq_of_lt hi]

/-- ROR undoes ROL: they are the rotations by an amount of 1 (R157, R177). -/
theorem ror_rol {W : Nat} (hW : 0 < W) (a : BitVec W) : (Functional.ror (Functional.rol a).1).1 = a := by
  have hone : (1#W).toNat = 1 := BitVec.toNat_one hW
  rw [← brol_eq_rol_of_one hone, ← bror_eq_ror_of_one hone, bror_brol]

/-- By one place the barrel forms drive the `r` of the one-position forms, and no leaving bit (R177). -/
theorem result_barrel_of_one {W : Nat} {p : Functional.Ports W} (hb : p.b.toNat = 1) {one barrel : Instr}
    (hpair : (one, barrel) ∈ [(Instr.shl, Instr.bshl), (.shr, .bshr), (.sar, .bsar), (.rol, .brol), (.ror, .bror)]) :
    (Functional.result barrel p).1 = (Functional.result one p).1 ∧ (Functional.result barrel p).2 = false ∧
      (Functional.result one p).2 = if one = .shl ∨ one = .rol then p.a.getLsbD (W - 1) else p.a.getLsbD 0 := by
  simp only [List.mem_cons, Prod.mk.injEq, List.not_mem_nil, or_false] at hpair
  rcases hpair with ⟨rfl, rfl⟩ | ⟨rfl, rfl⟩ | ⟨rfl, rfl⟩ | ⟨rfl, rfl⟩ | ⟨rfl, rfl⟩ <;> refine ⟨?_, rfl, rfl⟩
  · exact bshl_eq_shl_of_one hb p.a
  · exact bshr_eq_shr_of_one hb p.a
  · exact bsar_eq_sar_of_one hb p.a
  · exact brol_eq_rol_of_one hb p.a
  · exact bror_eq_ror_of_one hb p.a

/-- Settles O22: both evaluations drive their arms of the output function, which `result_barrel_of_one` compares. -/
theorem barrelByOne : Obligations.BarrelByOne := by
  intro s one barrel hpair hf hs
  obtain ⟨o, f, he, -, -, -, -, ho, -⟩ := evaluate_next hf hs one
  obtain ⟨o', f', he', -, -, -, -, ho', -⟩ := evaluate_next hf hs barrel
  refine ⟨o, f, o', f', (exec_eq one s).trans he, (exec_eq barrel s).trans he', fun ρ hb => ?_⟩
  rw [ho.values, ho'.values]
  exact result_barrel_of_one hb hpair

/-- The state after an evaluation, with the `r` of that evaluation driven on `a`. -/
def State.feedBack (s : State) (f : Factory) (o : Outputs) : State :=
  { s with factory := f, outputs := some o, inputs := { s.inputs with a := .word o.r } }

/-- The `r` of an evaluation passes every check of a port of the block's width. -/
theorem Drive.Ok.of_fits {o : Outputs} {W : Nat} {f : Factory} (h : o.fits W f = true) : (Drive.word o.r).Ok f W W := by
  have hown := port_owns h .r
  simp only [Outputs.port, List.all_eq_true, Factory.ownsBit, Bool.and_eq_true] at hown
  refine ⟨rfl, ?_, List.all_eq_true.mpr fun x hx => (hown x hx).1,
    List.all_eq_true.mpr fun x hx => (hown x hx).2, rfl, rfl⟩
  simp only [Outputs.fits, Bool.and_eq_true] at h
  obtain ⟨⟨⟨⟨⟨⟨hlen, -⟩, -⟩, -⟩, -⟩, -⟩, -⟩ := h
  exact hlen

theorem inputsOk_feedBack {s : State} {f : Factory} {o : Outputs} (hs : s.InputsOk) (e : s.factory.Extends f)
    (ho : o.fits s.width f = true) : (s.feedBack f o).InputsOk := by
  obtain ⟨⟨hop, -, hb, hctrl, hcin⟩, hread⟩ := (inputsOk_iff _).mp (inputsOk_extends hs e)
  exact (inputsOk_iff _).mpr ⟨⟨hop, .of_fits ho, hb, hctrl, hcin⟩, hread⟩

theorem ports_feedBack {s : State} {f : Factory} (o : Outputs) (hs : s.InputsOk) (e : s.factory.Extends f)
    (ρ : Assignment) : (s.feedBack f o).ports ρ = { s.ports ρ with a := (o.values s.width f ρ).r } := by
  rw [← ports_extends hs e ρ]
  rfl

/-- The right rotation of a pair undoes the left one in `r` (R157, R174). -/
theorem result_right_of_left {W : Nat} (hW : 0 < W) (p : Functional.Ports W) {left right : Instr}
    (hpair : (left, right) = (.rol, .ror) ∨ (left, right) = (.brol, .bror)) :
    (Functional.result right { p with a := (Functional.result left p).1 }).1 = p.a := by
  simp only [Prod.mk.injEq] at hpair
  rcases hpair with ⟨rfl, rfl⟩ | ⟨rfl, rfl⟩
  · exact ror_rol hW p.a
  · exact bror_brol p.a p.b

/-- Settles O21: the second evaluation is of the state that feeds the first `r` back, whose other ports keep their values. -/
theorem rightRotationUndoesLeft : Obligations.RightRotationUndoesLeft := by
  intro s left right hpair hf hs
  obtain ⟨o, f, he, hw, hext, -, -, ho, -⟩ := evaluate_next hf hs left
  obtain ⟨o', f', he', -, -, -, -, ho', -⟩ :=
    evaluate_next (s := s.feedBack f o) hw (inputsOk_feedBack hs hext ho.fits) right
  refine ⟨o, f, o', f', (exec_eq left s).trans he, (exec_eq right _).trans he', fun ρ => ?_⟩
  have hr : (o'.values s.width f' ρ).r = (Functional.result right ((s.feedBack f o).ports ρ)).1 :=
    congrArg Functional.Values.r (ho'.values ρ)
  rw [hr, ports_feedBack o hs hext, ho.values]
  exact result_right_of_left s.width_pos (s.ports ρ) hpair

/-! ### The cascade -/

/-- A cascade of stages computes the rule of their move, at one MUX a bit and stage (R175, R176). -/
theorem barrel_computes {fix : Nat → Word → Build Word} {move : Nat → List Bool → List Bool} {W : Nat}
    {rule : BitVec W → BitVec W → BitVec W} (hfix : IsStage fix W move) (hm : Composes move)
    (hrule : ∀ l, l.length = W → ∀ n : BitVec W, wordOf W (move n.toNat l) = rule (wordOf W l) n)
    {f : Factory} {a b : Word} (hf : f.wellBuilt = true) (ha : a.all f.ownsBit = true) (hb : b.all f.ownsBit = true)
    (hla : a.length = W) (hlb : b.length = W) :
    ∃ r f', barrel fix 0 b a f = .ok (r, f') ∧ f.Calls f' (W * W) (2 * W * W) ∧ r.length = W ∧
      r.all f'.ownsBit = true ∧
      ∀ ρ, wordOf W (f'.wordBits ρ r) = rule (wordOf W (f.wordBits ρ a)) (wordOf W (f.wordBits ρ b)) := by
  have da := denotesWord_self ha
  have db := denotesWord_self hb
  obtain ⟨r, f', he, hcalls, rs, hr, hlen, hval⟩ := (barrel_does hfix hm 0 db da (by simp [hla])).calls hf
  rw [List.length_map, hlb, ← Nat.mul_assoc] at hcalls
  refine ⟨r, f', he, hcalls, hr.length_eq.trans hlen, denotesWord_owns hr, fun ρ => ?_⟩
  rw [wordBits_of_denotes hr, wordBits_of_denotes da, wordBits_of_denotes db, hval, Nat.pow_zero, Nat.one_mul,
    ← wordOf_toNat (W := W) (by simp [hlb])]
  exact hrule _ (by simp [hla]) _

/-- Settles O45: each form's stages move by their amounts, the moves add up, and a move is the form's rule on words. -/
theorem barrelConstruction : Obligations.BarrelConstruction := by
  intro f a b W hf ha hb hla hlb hW Computes
  refine ⟨?_, ?_, ?_, ?_, ?_⟩
  · exact barrel_computes (rule := fun x n => BitVec.ofNat W (x.toNat * 2 ^ n.toNat)) (stageBshl_isStage W)
      moveLeft_composes (fun _ hl n => (moveLeft_word hl n).trans (word_nat W _)) hf ha hb hla hlb
  · exact barrel_computes (rule := fun x n => BitVec.ofNat W (x.toNat / 2 ^ n.toNat)) (stageBshr_isStage W)
      moveRight_composes (fun _ hl n => (moveRight_word hl n).trans (word_nat W _)) hf ha hb hla hlb
  · exact barrel_computes (stageBsar_isStage hW) moveRightSigned_composes (fun _ hl n => moveRightSigned_word hl n)
      hf ha hb hla hlb
  · exact barrel_computes (stageBrol_isStage hW) turnLeft_composes (fun _ hl n => turnLeft_word hl n) hf ha hb hla hlb
  · exact barrel_computes (stageBror_isStage hW) turnRight_composes (fun _ hl n => turnRight_word hl n) hf ha hb hla hlb

end Sys2Proof.Machine
end

section
/-! PROOFS. The family of spec/60_exceptions.md: the errors of use in their order (R182, R185, R205), refusal exactly by the check
of the inputs (R184), and IllegalOp as the final fault of a run (R181). -/

namespace Sys2Proof.Machine

/-! ### Errors of use -/

theorem literalOk_eq_false_iff (d : Drive) (n : Nat) :
    d.literalOk n = false ↔ ∃ k : Int, d = .literal k ∧ ¬ (0 ≤ k ∧ k < 2 ^ n) := by
  cases d with
  | literal k => simp only [Drive.literalOk, decide_eq_false_iff_not, Drive.literal.injEq, exists_eq_left']
  | _ => simp [Drive.literalOk]

theorem outPort_width (W : Nat) (p : OutPort) : OutPort.width W p = if p = .r then W else 1 := by cases p <;> rfl

theorem widthOk_eq_false_iff (d : Drive) (W n : Nat) :
    d.widthOk W n = false ↔ (∃ w : Word, d = .word w ∧ w.length ≠ n) ∨
      (∃ p : OutPort, d = .output p ∧ (if p = .r then W else 1) ≠ n) ∨ ∃ m p, d = .throughLogic m p ∧ m ≠ n := by
  cases d with
  | output p => simp [Drive.widthOk, Drive.width, outPort_width]
  | _ => simp [Drive.widthOk, Drive.width]

theorem matchesBit_eq_false_iff (f : Factory) (x : Bit) :
    f.matchesBit x = false ↔ (f.realization = .concrete ∧ ∃ n, x = .symbolic n) ∨
      (f.realization = .circuit ∧ ∃ b, x = .concrete b) := by
  cases x <;> cases hr : f.realization <;> simp [Factory.matchesBit, hr]

theorem hasNode_eq_false_iff (f : Factory) (x : Bit) :
    f.hasNode x = false ↔ ∃ n, x = .symbolic n ∧ f.graph.length ≤ n := by
  cases x <;> simp [Factory.hasNode]

/-- A check of every element fails exactly where some element is bad. -/
theorem all_eq_false_iff_exists {α : Type} {l : List α} {check : α → Bool} {bad : α → Prop}
    (h : ∀ x, check x = false ↔ bad x) : l.all check = false ↔ ∃ x ∈ l, bad x := by
  simp only [List.all_eq_false, Bool.not_eq_true, h]

theorem realizationOk_eq_false_iff (d : Drive) (f : Factory) :
    d.realizationOk f = false ↔ ∃ w : Word, d = .word w ∧ ∃ x ∈ w,
      (f.realization = .concrete ∧ ∃ n, x = .symbolic n) ∨ (f.realization = .circuit ∧ ∃ b, x = .concrete b) := by
  cases d with
  | word w =>
    simp only [Drive.realizationOk, all_eq_false_iff_exists (matchesBit_eq_false_iff f), Drive.word.injEq, exists_eq_left']
  | _ => simp [Drive.realizationOk]

theorem acyclic_eq_false_iff (d : Drive) (f : Factory) :
    d.acyclic f = false ↔ (∃ p : OutPort, d = .output p ∨ ∃ n, d = .throughLogic n p) ∨
      ∃ w : Word, d = .word w ∧ ∃ n, Bit.symbolic n ∈ w ∧ f.graph.length ≤ n := by
  cases d with
  | word w =>
    rw [Drive.acyclic, all_eq_false_iff_exists (hasNode_eq_false_iff f)]
    simp
  | _ => simp [Drive.acyclic]

/-- Settles O33: each check of `State.inputError` fails exactly where its error of use is present, and the first that fails
names the refusal of the step. -/
theorem errorsOfUseRefused : Obligations.ErrorsOfUseRefused := by
  intro s hi literal width realization extract cycle
  have hliteral : _ ↔ literal := all_eq_false_iff_exists fun d => literalOk_eq_false_iff d.2 d.1
  have hwidth : _ ↔ width := all_eq_false_iff_exists fun d => widthOk_eq_false_iff d.2 s.width d.1
  have hrealization : _ ↔ realization := all_eq_false_iff_exists fun d => realizationOk_eq_false_iff d.2 s.factory
  have hextract : (s.inputs.readOut.isSome && s.factory.realization == .circuit) = true ↔ extract := by
    rw [Bool.and_eq_true, beq_iff_eq]
  have hcycle : _ ↔ cycle := all_eq_false_iff_exists fun d => acyclic_eq_false_iff d.2 s.factory
  have passes {check : Bool} {bad : Prop} (h : check = false ↔ bad) (hn : ¬ bad) : check = true :=
    Bool.eq_true_of_not_eq_false (mt h.mp hn)
  refine ⟨fun h => step_of_inputError hi ?_, fun noLiteral h => step_of_inputError hi ?_,
    fun noLiteral noWidth h => step_of_inputError hi ?_,
    fun noLiteral noWidth noRealization h => step_of_inputError hi ?_,
    fun noLiteral noWidth noRealization noExtract h => step_of_inputError hi ?_⟩
  · rw [State.inputError, hliteral.mpr h]; rfl
  · rw [State.inputError, passes hliteral noLiteral, hwidth.mpr h]; rfl
  · rw [State.inputError, passes hliteral noLiteral, passes hwidth noWidth, hrealization.mpr h]; rfl
  · rw [State.inputError, passes hliteral noLiteral, passes hwidth noWidth, passes hrealization noRealization,
      hextract.mpr h]; rfl
  · rw [State.inputError, passes hliteral noLiteral, passes hwidth noWidth, passes hrealization noRealization,
      Bool.eq_false_of_not_eq_true (mt hextract.mp noExtract), hcycle.mpr h]; rfl

/-! ### Refusal exactly by the inputs -/

/-- What answers the refusal of the inputs, and goes on where there is none, refuses exactly as the inputs do (R184). -/
theorem refused_iff_inputError {s : State} {x : Host.Outcome State Fault Refusal}
    (refuses : ∀ r, s.inputError = some r → x = .refused r) (goesOn : s.InputsOk → ∃ t, x = .next t) (r : Refusal) :
    x = .refused r ↔ s.inputError = some r := by
  refine ⟨fun hx => ?_, refuses r⟩
  cases he : s.inputError with
  | none =>
    obtain ⟨t, ht⟩ := goesOn he
    rw [ht] at hx; cases hx
  | some r' => rw [Host.Outcome.refused.inj ((refuses r' he).symm.trans hx)]

/-- Settles O35: `step_next` and `evaluate_next` go on wherever no input is refused. -/
theorem refusedExactlyByInputs : Obligations.RefusedExactlyByInputs := by
  intro s hf hi
  have goesOn : s.InputsOk → ∃ t, step s = .next t := fun hs => by
    obtain ⟨_, _, _, _, _, hstep, -⟩ := step_next hf hs hi
    exact ⟨_, hstep⟩
  refine ⟨refused_iff_inputError (fun r => step_of_inputError hi) goesOn,
    ⟨fun ⟨t, ht⟩ => (ready_of_step_next ht).2, goesOn⟩, fun i => ?_⟩
  rw [exec_eq]
  refine refused_iff_inputError (fun r he => evaluate_refused he _) fun hs => ?_
  obtain ⟨_, _, he, -⟩ := evaluate_next hf hs i
  exact ⟨_, he⟩

/-! ### IllegalOp is final -/

/-- Settles O50: `step_illegalUnder` keeps a record that is there and makes one otherwise exactly for a reserved code;
`stops_of_illegalUnder` says what a record does. -/
theorem illegalIsFinal : Obligations.IllegalIsFinal := by
  intro s ρ hinv
  refine ⟨fun c hc => ?_, fun hn => ⟨by simp only [stepUnder, hn], fun t h => ?_⟩⟩
  · obtain ⟨hout, hstop⟩ := stops_of_illegalUnder hc
    refine ⟨hstop, hout, fun t h => ?_⟩
    have ht : t.illegalUnder ρ = some c := by rw [step_illegalUnder hinv h ρ, hc, Option.some_or]
    exact ⟨ht, (stops_of_illegalUnder ht).1⟩
  · rw [step_illegalUnder hinv h ρ, hn, Option.none_or]

theorem evaluate_ne_fault (operation : Wires → Build Driven) (s : State) (e : Fault) :
    evaluate operation s ≠ .fault e := by
  unfold evaluate
  split
  · exact nofun
  · split <;> exact nofun

theorem takeIllegalOp_ne_fault (c : BitVec 5) (s : State) (e : Fault) : takeIllegalOp c s ≠ .fault e := by
  unfold takeIllegalOp
  split <;> exact nofun

theorem evaluateSymbolicOp_ne_fault (s : State) (e : Fault) : evaluateSymbolicOp s ≠ .fault e := by
  unfold evaluateSymbolicOp
  split <;> exact nofun

/-- Settles O32: of what a step can do, only the stop on a recorded code is a fault; no evaluation ends in one. -/
theorem faultsExactly : Obligations.FaultsExactly := by
  intro s e
  refine ⟨fun h => ?_, fun ⟨c, hc, he⟩ => he ▸ step_of_illegal hc⟩
  rcases step_cases s with ⟨c, hc, h'⟩ | ⟨-, r, -, h'⟩ | ⟨-, -, ⟨c, i, -, -, h'⟩ | ⟨c, -, -, h'⟩ | ⟨-, h'⟩⟩
  · exact ⟨c, hc, Host.Outcome.fault.inj (h.symm.trans h')⟩
  · rw [h'] at h; cases h
  · exact absurd (h'.symm.trans h) (evaluate_ne_fault _ s e)
  · exact absurd (h'.symm.trans h) (takeIllegalOp_ne_fault c s e)
  · exact absurd (h'.symm.trans h) (evaluateSymbolicOp_ne_fault s e)

end Sys2Proof.Machine
end
